-- ==== Sys2Proof/Word.lean ====
section
/-! DEFINITION. The Machine's data: program cells, output elements, and the length of a number in
bits (spec/00_scope.md rule R2 and section 5, spec/10_state.md rules R14, R19, R21). -/

namespace Sys2Proof

/-- One program cell as stored: `CELL_BITS = 8` bits, so 0 to 255 (R2, decision D2, conflict C1).
The engine treats it as a number; only 0 to 7 are legal where it is decoded. -/
abbrev Cell := BitVec 8

/-- One element of the output buffer: a 3-bit value, 0 to 7 (R21). -/
abbrev OutElem := BitVec 3

/-- A program: an ordered sequence of cells, index 0 first (R19). -/
abbrev Program := List Cell

/-- `bitlen(v)` of R14: 0 for 0, otherwise `floor(log2 v) + 1`. -/
def bitLen (v : Nat) : Nat := if v = 0 then 0 else Nat.log2 v + 1

end Sys2Proof
end

