-- ==== Sys2Proof/Machine/Alu.lean ====
section
/-! DEFINITION. The operations on natural numbers the instructions share (spec/41_divide.md rule R85,
spec/42_bitwise.md rule R90). -/

namespace Sys2Proof.Machine

/-- `ShiftDiv(a, s) = a div 2^s` (R85): a right shift of a natural number, the amount neither masked nor
clamped (R89). -/
def shiftDiv (a s : Nat) : Nat := a >>> s

/-- `a XOR b` on binary expansions, the shorter one extended with zero bits (R90). -/
def bitXor (a b : Nat) : Nat := a ^^^ b

/-- `v AND 0b111`, which is `v mod 8` (R90). -/
def low3 (v : Nat) : Nat := v % 8

end Sys2Proof.Machine
end

