-- ==== Sys2Proof/Config.lean ====
section
/-! DEFINITION. The parameters the spec leaves open (spec/00_scope.md rule R2): fixed at construction,
never changed by a step. The defaults are the spec's. -/

namespace Sys2Proof

/-- The open parameters of R2. `CELL_BITS` is fixed at 8 (`Cell`), `PROG_LEN` is the length of the
program. DESIGN CHOICE (log entry 3): a machine carries its setting, so that a statement about every
state covers every setting. -/
structure Config where
  /-- `STRICT_JUMP_ALIGN`: whether a taken jump to an odd index faults (R97, decision D8). -/
  strictJumpAlign : Bool := false
  /-- `XLEN`: the width of A, B and C in bits, `none` for unbounded (R2, R10, decision D1). -/
  xlen : Option Nat := none
  /-- `OUT_CAP`: the capacity of the output buffer, `none` for unbounded (R2, decision D4). -/
  outCap : Option Nat := none
  deriving DecidableEq, Repr

end Sys2Proof
end

