-- ==== Sys2Proof/Syntax.lean ====
section
/-! DEFINITION. The instruction set: one constructor per row of spec/opcode_table.json
(spec/30_encoding.md rules R50 to R52, R54). -/

namespace Sys2Proof

/-- The closed set of eight instructions (R52, R54). Each carries its operand cell as fetched (R50);
what the cell means is fixed by the instruction's operand mode (R51). -/
inductive Instr where
  /-- opcode 0: A divided by a power of two, into A (R86). -/
  | adv (o : Cell)
  /-- opcode 1: B XOR a literal, into B (R91). -/
  | bxl (o : Cell)
  /-- opcode 2: the low three bits of a combo operand, into B (R92). -/
  | bst (o : Cell)
  /-- opcode 3: jump to a literal index when A is not 0 (R96). -/
  | jnz (o : Cell)
  /-- opcode 4: B XOR C, into B; the operand cell is ignored (R93). -/
  | bxc (o : Cell)
  /-- opcode 5: append the low three bits of a combo operand to the output (R101). -/
  | out (o : Cell)
  /-- opcode 6: A divided by a power of two, into B (R87). -/
  | bdv (o : Cell)
  /-- opcode 7: A divided by a power of two, into C (R88). -/
  | cdv (o : Cell)
  deriving DecidableEq, Repr

end Sys2Proof
end

