-- ==== Sys2Proof/WellFormed.lean ====
section
/-! DEFINITION. Which instructions are legal encodings: the operand mode of each opcode and the
operand values legal in it (spec/30_encoding.md rules R51, R56, R57, R58, R60). -/

namespace Sys2Proof

/-- The three operand modes (R51, column "operand mode"). -/
inductive OperandMode where
  /-- format L: the cell's value itself (R56). -/
  | literal
  /-- format K: 0 to 3 a literal, 4 to 6 a register (R57). -/
  | combo
  /-- format N: the cell is not examined (R58). -/
  | ignored
  deriving DecidableEq, Repr

/-- The mode is a property of the instruction, not of the operand (R51). -/
def Instr.mode : Instr → OperandMode
  | .adv _ => .combo
  | .bxl _ => .literal
  | .bst _ => .combo
  | .jnz _ => .literal
  | .bxc _ => .ignored
  | .out _ => .combo
  | .bdv _ => .combo
  | .cdv _ => .combo

/-- The operand cell of an instruction (R50). -/
def Instr.operand : Instr → Cell
  | .adv o => o
  | .bxl o => o
  | .bst o => o
  | .jnz o => o
  | .bxc o => o
  | .out o => o
  | .bdv o => o
  | .cdv o => o

/-- The operand cell's legal values in a mode (R51, column "operand cell legal values"). -/
def OperandMode.legal : OperandMode → Cell → Bool
  | .literal, o => o.toNat ≤ 7
  | .combo, o => o.toNat ≤ 6
  | .ignored, _ => true

/-- An instruction is well formed when its operand cell is legal in its mode (R60). -/
def Instr.wellFormed (i : Instr) : Bool := i.mode.legal i.operand

end Sys2Proof
end

