-- ==== Sys2Proof/Decode.lean ====
section
/-! DEFINITION. The decoder and the encoder (spec/30_encoding.md rules R50 to R61,
spec/40_step_cycle.md rule R73, spec/60_exceptions.md rules R111, R112). Decoding is total on any pair
of cells and rejects by cause. -/

namespace Sys2Proof

/-- The causes of a decode error (R111). -/
inductive Cause where
  /-- code 1: the opcode cell is above 7. -/
  | illegalOpcode
  /-- code 2: a combo operand cell of 7. -/
  | reservedComboOperand
  /-- code 3: a literal or combo operand cell above 7. -/
  | operandOutOfRange
  /-- code 4: a taken jump to an odd index, only with `STRICT_JUMP_ALIGN`. -/
  | misalignedJumpTarget
  deriving DecidableEq, Repr

/-- The cause's number (R111, decision D10). -/
def causeCode : Cause → Nat
  | .illegalOpcode => 1
  | .reservedComboOperand => 2
  | .operandOutOfRange => 3
  | .misalignedJumpTarget => 4

/-- Why the decoder rejects a pair: the cause and the offending cell (R111, column `value`). -/
structure DecodeReject where
  cause : Cause
  value : Cell
  deriving DecidableEq, Repr

/-- The opcode cell's value selects the instruction; above 7 it selects none (R52, R53, R54). -/
def decodeOpcode (opc o : Cell) : Option Instr :=
  match opc.toNat with
  | 0 => some (.adv o)
  | 1 => some (.bxl o)
  | 2 => some (.bst o)
  | 3 => some (.jnz o)
  | 4 => some (.bxc o)
  | 5 => some (.out o)
  | 6 => some (.bdv o)
  | 7 => some (.cdv o)
  | _ => none

/-- The range check of the operand cell in its mode: the cause it fails with, or `none` (R56, R57, R58).
It looks at no register. -/
def operandCheck (m : OperandMode) (o : Cell) : Option Cause :=
  match m with
  | .literal => if o.toNat ≤ 7 then none else some .operandOutOfRange
  | .combo =>
    if o.toNat ≤ 6 then none
    else if o.toNat = 7 then some .reservedComboOperand
    else some .operandOutOfRange
  | .ignored => none

/-- Decode one pair: the opcode cell first, then the operand cell in the opcode's mode (R73, R112). -/
def decode (opc o : Cell) : Except DecodeReject Instr :=
  match decodeOpcode opc o with
  | none => .error ⟨.illegalOpcode, opc⟩
  | some i =>
    match operandCheck i.mode o with
    | some cause => .error ⟨cause, o⟩
    | none => .ok i

/-- The opcode cell of an instruction (R52). -/
def opcodeCell : Instr → Cell
  | .adv _ => 0
  | .bxl _ => 1
  | .bst _ => 2
  | .jnz _ => 3
  | .bxc _ => 4
  | .out _ => 5
  | .bdv _ => 6
  | .cdv _ => 7

/-- The two cells of an instruction, opcode cell first (R50, R62). -/
def encode (i : Instr) : Cell × Cell := (opcodeCell i, i.operand)

/-- The pair view of R61: the opcode cell in bits 15:8. -/
def tableOpcode (nbits w : Nat) : Cell := BitVec.ofNat 8 (w % 2 ^ nbits / 256)

/-- The pair view of R61: the operand cell in bits 7:0. -/
def tableOperand (nbits w : Nat) : Cell := BitVec.ofNat 8 (w % 2 ^ nbits)

/-- The instruction the decoder reads from a pair written as one number in the pair view of R61, which
is how spec/opcode_table.json numbers its bits (log entry 12). -/
def decodeTableWord (nbits w : Nat) : Option Instr :=
  match decode (tableOpcode nbits w) (tableOperand nbits w) with
  | .ok i => some i
  | .error _ => none

end Sys2Proof
end

