-- ==== Sys2Proof/Machine/State.lean ====
section
/-! DEFINITION. The state of one Machine (spec/10_state.md), the reasons a step can stop, and the state
right after construction, which is this machine's reset (R24, R130). -/

namespace Sys2Proof.Machine

/-- The content of a set fault latch: `Some(cause, fpc, value)` of R20. -/
structure FaultRecord where
  /-- the cause (R111). -/
  cause : Cause
  /-- `pc` of the faulting instruction, the index of its opcode cell. -/
  fpc : Nat
  /-- the offending cell. -/
  value : Cell
  deriving DecidableEq, Repr

/-- The whole state: the tuple at the head of spec/10_state.md, and the parameters of R2. `len` is the
length of `prog`. -/
structure State where
  /-- A = x[0], a natural number (R10). -/
  a : Nat
  /-- B = x[1] (R10). -/
  b : Nat
  /-- C = x[2] (R10). -/
  c : Nat
  /-- the program counter, a cell index (R15). -/
  pc : Nat
  /-- the output buffer, oldest element first (R21). -/
  out : List OutElem
  /-- the fault latch (R20). -/
  fault : Option FaultRecord
  /-- the program, fixed at construction (R19, R40). -/
  prog : Program
  /-- the open parameters, fixed at construction (R2; DESIGN CHOICE, log entry 3). -/
  cfg : Config
  deriving DecidableEq, Repr

/-- Why a step answers no next state. Neither is an error of the step itself: both say that the spec
gives this state NO step (R70), so a claim about a next state says nothing of it. -/
inductive Fault where
  /-- Raised by `step` where `pc + 1 >= len`: the run has ended normally (R71, R77). Safe: the machine
  has no step here, and none is invented (decision D5, log entry 6). -/
  | halted
  /-- Raised by `step` where the fault latch is set: the run was aborted by the decode error recorded
  (R70, R114). Safe: the machine has no step here (decision D5, log entry 6). -/
  | latched (record : FaultRecord)
  deriving DecidableEq, Repr

/-- Why an instruction is given no effect. -/
inductive Refusal where
  /-- Raised by an arm of `exec` that has no meaning yet; no arm does so in this model. Safe. -/
  | notModelled (mnemonic : String)
  /-- Raised by `execOut` when a FINITE `OUT_CAP` would be exceeded: the spec gives no buffer-full
  behaviour (decision D4, row U8; log entry 8). Never with the default, unbounded. Safe. -/
  | outputCapacityExceeded
  deriving DecidableEq, Repr

/-- The state right after construction from the host's inputs (R24, R131). -/
def State.fresh (cfg : Config) (a b c : Nat) (p : Program) : State where
  a := a
  b := b
  c := c
  pc := 0
  out := []
  fault := none
  prog := p
  cfg := cfg

/-- The machine right after reset. Reset is construction (R130), and the host supplies A, B, C and the
program (R24). DESIGN CHOICE (log entry 1): where no host has spoken, A = B = C = 0 and no program. -/
def State.reset : State := State.fresh (Config.mk false none none) 0 0 0 []

end Sys2Proof.Machine
end

