-- ==== Sys2Proof/Machine/Ops.lean ====
section
/-! DEFINITION. The named operations over registers, program counter, program store, output buffer and
fault latch, and the taking of a decode error. The machine has no return from one (spec/60_exceptions.md
rule R115). -/

namespace Sys2Proof.Machine

/-- The three general registers (R10). -/
inductive Reg where
  | A
  | B
  | C
  deriving DecidableEq, Repr

/-- `x[i]` reads a register (R10). -/
def State.reg (s : State) : Reg → Nat
  | .A => s.a
  | .B => s.b
  | .C => s.c

/-- `x[i] <- v` writes a register and nothing else (R12). -/
def State.setReg (s : State) (r : Reg) (v : Nat) : State :=
  match r with
  | .A => { s with a := v }
  | .B => { s with b := v }
  | .C => { s with c := v }

/-- `pc <- pc + 2` (R16). -/
def State.advance (s : State) : State := { s with pc := s.pc + 2 }

/-- `pc <- target` (R16). -/
def State.jumpTo (s : State) (target : Nat) : State := { s with pc := target }

/-- `OutAppend(v)`: the new last element of the output buffer (R21, R101). -/
def State.outAppend (s : State) (v : OutElem) : State := { s with out := s.out ++ [v] }

/-- Whether one more element fits the output buffer: always, unless `OUT_CAP` is finite and reached
(R2, R101, decision D4). -/
def State.outRoom (s : State) : Bool :=
  match s.cfg.outCap with
  | none => true
  | some cap => s.out.length < cap

/-- `len`, the number of cells of the program (R19). -/
def State.len (s : State) : Nat := s.prog.length

/-- `MemRead(i, 1)`, also `Prog[i]`: one cell of the program space, `none` where there is no cell
(R31). -/
def State.memRead (s : State) (i : Nat) : Option Cell := s.prog[i]?

/-- The halt condition `pc + 1 >= len` (R71). -/
def State.halted (s : State) : Bool := s.pc + 1 ≥ s.len

/-- Fetch: the opcode cell and the operand cell, after the halt test (R71, R72). -/
def fetch (s : State) : Option (Cell × Cell) :=
  if s.halted then none
  else
    match s.memRead s.pc, s.memRead (s.pc + 1) with
    | some opc, some o => some (opc, o)
    | _, _ => none

/-- Taking a decode error: the latch is set to the cause, the `pc` of the instruction and the offending
cell; nothing else changes and control goes nowhere (R75, R113). -/
def State.latch (s : State) (cause : Cause) (value : Cell) : State :=
  { s with fault := some { cause := cause, fpc := s.pc, value := value } }

/-- `raise DecodeError(cause, pc, value)`: the step ends in the latched state (R113). -/
def raise (cause : Cause) (value : Cell) (s : State) : Host.Outcome State Fault Refusal :=
  .next (s.latch cause value)

/-- Complete an instruction that writes one register: the write, then `pc <- pc + 2` (R12, R16). -/
def finish (r : Reg) (v : Nat) (s : State) : Host.Outcome State Fault Refusal :=
  .next (s.setReg r v).advance

/-- The program with the pair `(opc, o)` at indices `i` and `i + 1`, the other cells as they were; cells
missing below `i` are 0. Used to place an instruction where the fetch reads it (log entry 2). -/
def placePair (p : Program) (i : Nat) (opc o : Cell) : Program :=
  p.take i ++ List.replicate (i - p.length) 0 ++ [opc, o] ++ p.drop (i + 2)

/-- The program space as (index, cell) pairs, indices rising (R30, R35; log entry 13). -/
def cellsFrom (start : Nat) : Program → List Host.Cell
  | [] => []
  | x :: rest => (start, x) :: cellsFrom (start + 1) rest

/-- The listing of a machine's program space. -/
def State.cells (s : State) : List Host.Cell := cellsFrom 0 s.prog

/-- The canonical form of a listing: addresses strictly rising. An address that is not listed has no
cell (R31), so no listed entry can equal what an unlisted address reads as. -/
def Memory.wf : List Host.Cell → Bool
  | [] => true
  | [_] => true
  | x :: y :: rest => x.1 < y.1 && Memory.wf (y :: rest)

end Sys2Proof.Machine
end

