-- ==== Sys2Proof/Machine/Operands.lean ====
section
/-! DEFINITION. The Operand Resolver (spec/30_encoding.md rules R55 to R59): a function of the operand
cell, the mode and the registers before the step; it writes nothing. -/

namespace Sys2Proof.Machine

/-- Literal mode (R56). -/
def lit (o : Cell) : Except Cause Nat :=
  if o.toNat ≤ 7 then .ok o.toNat else .error .operandOutOfRange

/-- Combo mode (R57). -/
def combo (o : Cell) (s : State) : Except Cause Nat :=
  if o.toNat ≤ 3 then .ok o.toNat
  else if o.toNat = 4 then .ok (s.reg .A)
  else if o.toNat = 5 then .ok (s.reg .B)
  else if o.toNat = 6 then .ok (s.reg .C)
  else if o.toNat = 7 then .error .reservedComboOperand
  else .error .operandOutOfRange

/-- Resolve, then execute: a decode error of the resolver ends the step before any part of the effect,
whether or not the effect uses the value (R59, R73). -/
def withOperand (r : Except Cause Nat) (o : Cell) (s : State)
    (effect : Nat → Host.Outcome State Fault Refusal) : Host.Outcome State Fault Refusal :=
  match r with
  | .ok v => effect v
  | .error cause => raise cause o s

end Sys2Proof.Machine
end

