-- ==== Sys2Proof/Machine/Bitwise.lean ====
section
/-! DEFINITION. The bitwise family: `bxl`, `bst`, `bxc` (spec/42_bitwise.md rules R90 to R93). -/

namespace Sys2Proof.Machine

/-- R91: B XOR the literal. -/
def execBxl (o : Cell) (s : State) : Host.Outcome State Fault Refusal :=
  withOperand (lit o) o s fun v => finish .B (bitXor (s.reg .B) v) s

/-- R92: the low three bits of the combo operand. -/
def execBst (o : Cell) (s : State) : Host.Outcome State Fault Refusal :=
  withOperand (combo o s) o s fun v => finish .B (low3 v) s

/-- R93: B XOR C. The operand cell is not examined (R58, decision D7). -/
def execBxc (_o : Cell) (s : State) : Host.Outcome State Fault Refusal :=
  finish .B (bitXor (s.reg .B) (s.reg .C)) s

end Sys2Proof.Machine
end

