-- ==== Sys2Proof/Machine/Divide.lean ====
section
/-! DEFINITION. The divide family: `adv`, `bdv`, `cdv` (spec/41_divide.md rules R85 to R89). -/

namespace Sys2Proof.Machine

/-- `A div 2^combo(o)` into a register; the dividend is always A (R85). -/
def divideInto (r : Reg) (o : Cell) (s : State) : Host.Outcome State Fault Refusal :=
  withOperand (combo o s) o s fun v => finish r (shiftDiv (s.reg .A) v) s

/-- R86. -/
def execAdv (o : Cell) (s : State) : Host.Outcome State Fault Refusal := divideInto .A o s

/-- R87. -/
def execBdv (o : Cell) (s : State) : Host.Outcome State Fault Refusal := divideInto .B o s

/-- R88. -/
def execCdv (o : Cell) (s : State) : Host.Outcome State Fault Refusal := divideInto .C o s

end Sys2Proof.Machine
end

