-- ==== Sys2Proof/Machine/Flags.lean ====
section
/-! DEFINITION. The Machine has no flags, condition codes or predicate registers (spec/10_state.md rule
R18). The one condition an instruction tests is read straight from register A. -/

namespace Sys2Proof.Machine

/-- The condition of the jump: `A != 0`, on the whole register (R18, R96). -/
def State.jumpCondition (s : State) : Bool := s.reg .A ≠ 0

/-- Whether a jump target is refused for its alignment: odd, under `STRICT_JUMP_ALIGN` (R97). -/
def State.targetMisaligned (s : State) (target : Nat) : Bool :=
  s.cfg.strictJumpAlign && target % 2 == 1

end Sys2Proof.Machine
end

