-- ==== Sys2Proof/Machine/Jump.lean ====
section
/-! DEFINITION. Control transfer: `jnz` (spec/43_jump.md rules R95 to R98). -/

namespace Sys2Proof.Machine

/-- R96: a taken jump sets `pc` to exactly the literal; under `STRICT_JUMP_ALIGN` a taken jump to an odd
index raises cause 4 instead (R97). -/
def execJnz (o : Cell) (s : State) : Host.Outcome State Fault Refusal :=
  withOperand (lit o) o s fun v =>
    if s.jumpCondition then
      if s.targetMisaligned v then raise .misalignedJumpTarget o s else .next (s.jumpTo v)
    else .next s.advance

end Sys2Proof.Machine
end

