-- ==== Sys2Proof/Machine/Output.lean ====
section
/-! DEFINITION. Output: `out` (spec/44_output.md rules R100 to R102). -/

namespace Sys2Proof.Machine

/-- R101: append the low three bits of the combo operand. A finite `OUT_CAP` that would be exceeded is
refused by name: the spec gives no effect there (decision D4, row U8; log entry 8). -/
def execOut (o : Cell) (s : State) : Host.Outcome State Fault Refusal :=
  withOperand (combo o s) o s fun v =>
    if s.outRoom then .next (s.outAppend (BitVec.ofNat 3 (low3 v))).advance
    else .refused .outputCapacityExceeded

end Sys2Proof.Machine
end

