-- ==== Sys2Proof/Machine/Step.lean ====
section
/-! DEFINITION. One step of the engine (spec/40_step_cycle.md rules R70 to R75). -/

namespace Sys2Proof.Machine

/-- One step: no step in a faulted or a halted state (R70, R71); otherwise fetch the pair (R72), decode
it, a rejected pair taking its decode error (R73, R113), and execute it (R74). -/
def step (s : State) : Host.Outcome State Fault Refusal :=
  match s.fault with
  | some record => .fault (.latched record)
  | none =>
    match fetch s with
    | none => .fault .halted
    | some (opc, o) =>
      match decode opc o with
      | .error reject => raise reject.cause reject.value s
      | .ok i => exec i s

/-- The state with the instruction written in the pair view of R61 placed where the next fetch reads it,
and the latch clear so that there is a next fetch. It stands for the construction of an instance with
that program (R131; log entry 2). -/
def State.withFetchWord (s : State) (nbits w : Nat) : State :=
  { s with
    prog := placePair s.prog s.pc (tableOpcode nbits w) (tableOperand nbits w)
    fault := none }

end Sys2Proof.Machine
end

