-- ==== Sys2Proof/Machine/HostInterface.lean ====
section
/-! DEFINITION. The five operations a host has on a Machine: Construct, Step, Run, Status, Output
(spec/70_reset_and_hazards.md rules R130 to R136). -/

namespace Sys2Proof.Machine

/-- Why a construction is refused: only for a finite `XLEN` (decision D1, row U7). -/
inductive ConstructRefusal where
  /-- `XLEN` is finite and below 3 (R2). Safe. -/
  | widthBelowThree
  /-- `XLEN` is finite and an initial register does not fit it. Safe. -/
  | registerTooWide
  deriving DecidableEq, Repr

/-- `Construct(A0, B0, C0, P)` (R24, R131), with the host's obligation for a finite `XLEN` (R2, R132). -/
def construct (cfg : Config) (a b c : Nat) (p : Program) : Except ConstructRefusal State :=
  match cfg.xlen with
  | none => .ok (State.fresh cfg a b c p)
  | some width =>
    if width < 3 then .error .widthBelowThree
    else if a < 2 ^ width ∧ b < 2 ^ width ∧ c < 2 ^ width then .ok (State.fresh cfg a b c p)
    else .error .registerTooWide

/-- `Step` as the host calls it: one step if one exists, otherwise no effect (R135, decision D5). -/
def hostStep (s : State) : Host.Outcome State Fault Refusal :=
  match step s with
  | .next t => .next t
  | .fault _ => .next s
  | .refused r => .refused r

/-- What `Status` answers (R135). -/
inductive Status where
  | running
  | halted
  | faulted (record : FaultRecord)
  deriving DecidableEq, Repr

/-- `Status`: faulted if the latch is set, else halted if `pc + 1 >= len`, else running (R135). -/
def statusOf (s : State) : Status :=
  match s.fault with
  | some record => .faulted record
  | none => if s.halted then .halted else .running

/-- `Output`: the output buffer, meaningful only in a final state (R77, R136). -/
def outputOf (s : State) : Option (List OutElem) :=
  match statusOf s with
  | .halted => some s.out
  | _ => none

/-- What `Run` answers (R76), and what an executor with limited fuel adds (R78, row U13). -/
inductive RunResult where
  /-- `Ok(out)`: halted, the result is the whole of `out`. -/
  | ok (out : List OutElem)
  /-- `Fatal(fault)`: no output is returned. -/
  | fatal (record : FaultRecord)
  /-- still running when the fuel was spent: says nothing about the run. -/
  | unfinished (s : State)
  /-- a step was refused (a finite `OUT_CAP`). -/
  | refused (r : Refusal)
  deriving DecidableEq, Repr

/-- What a run has come to in a state in which it is not continued. -/
def runResultAt (s : State) : RunResult :=
  match statusOf s with
  | .halted => .ok s.out
  | .faulted record => .fatal record
  | .running => .unfinished s

/-- `Run`, at most `fuel` steps: steps until halted or faulted (R76, R77, R78). -/
def runFor : Nat → State → RunResult
  | 0, s => runResultAt s
  | fuel + 1, s =>
    match step s with
    | .next t => runFor fuel t
    | .fault _ => runResultAt s
    | .refused r => .refused r

end Sys2Proof.Machine
end

