-- ==== Sys2Proof/Machine/QuineSolver.lean ====
section
/-! DEFINITION. The Quine Solver, a HOST procedure and not part of the hardware block
(spec/70_reset_and_hazards.md rules R145 to R152; spec/00_scope.md section 3). It drives fresh Machines
through the host interface and nothing else. -/

namespace Sys2Proof.Machine

/-- What the solver answers (R150), and where this model of it gives up. -/
inductive SearchResult where
  /-- `Found(target_A)`. -/
  | found (targetA : Nat)
  /-- the search tree is exhausted without success. -/
  | notFound
  /-- a trial or the validation met a decode error: the whole search is aborted (R116, R150). -/
  | fatal (record : FaultRecord)
  /-- a run did not end within the fuel (R78): says nothing about the search. -/
  | unfinished
  /-- a run was refused (a finite `OUT_CAP`). -/
  | refused (r : Refusal)
  /-- a trial could not be constructed (a finite `XLEN`). -/
  | notConstructed (r : ConstructRefusal)
  /-- the program has no final pair: the solver is not defined (R152). -/
  | notDefined
  deriving DecidableEq, Repr

/-- The truncated program: all but the last two cells (R146). -/
def truncated (p : Program) : Program := p.take (p.length - 2)

/-- Run a fresh Machine with A = `candidate` and B = C = 0 (R146): its output, or the answer with which
the whole search is given up. -/
def trialRun (cfg : Config) (fuel candidate : Nat) (p : Program) :
    Except SearchResult (List OutElem) :=
  match construct cfg candidate 0 0 p with
  | .error r => .error (.notConstructed r)
  | .ok s =>
    match runFor fuel s with
    | .ok o => .ok o
    | .fatal record => .error (.fatal record)
    | .unfinished _ => .error .unfinished
    | .refused r => .error (.refused r)

/-- Whether an output is, element for element, the program (R145). -/
def outputIsProgram (o : List OutElem) (p : Program) : Bool :=
  o.map BitVec.toNat == p.map BitVec.toNat

/-- Whether the first element emitted is `P[index]`; no element is no match (R147 step 3, R152). -/
def firstMatches (o : List OutElem) (p : Program) (index : Nat) : Bool :=
  match o.head?, p[index]? with
  | some e, some x => e.toNat == x.toNat
  | _, _ => false

/-- Step 4 of R147: the full program run with the candidate. -/
def validate (cfg : Config) (fuel : Nat) (p : Program) (candidate : Nat) : SearchResult :=
  match trialRun cfg fuel candidate p with
  | .error r => r
  | .ok o => if outputIsProgram o p then .found candidate else .notFound

/-- Steps 2 to 5 of R147 for one candidate; `deeper` is what is done with a candidate that matches. -/
def visit (cfg : Config) (fuel : Nat) (p : Program) (index : Nat) (deeper : Nat → SearchResult)
    (candidate : Nat) : SearchResult :=
  match trialRun cfg fuel candidate (truncated p) with
  | .error r => r
  | .ok o => if firstMatches o p index then deeper candidate else .notFound

/-- Steps 1 and 6 of R147: the digits in the order given; the first answer other than `notFound` is the
level's answer (R149). -/
def tryDigits (attempt : Nat → SearchResult) (current : Nat) : List Nat → SearchResult
  | [] => .notFound
  | d :: ds =>
    match attempt (current * 8 + d) with
    | .notFound => tryDigits attempt current ds
    | r => r

/-- The digits of a level, ascending (R147). -/
def octalDigits : List Nat := [0, 1, 2, 3, 4, 5, 6, 7]

/-- `Search(index, current)` of R147; each run within it has `fuel` steps. -/
def search (cfg : Config) (fuel : Nat) (p : Program) : Nat → Nat → SearchResult
  | 0, current => tryDigits (visit cfg fuel p 0 (validate cfg fuel p)) current octalDigits
  | index + 1, current =>
    tryDigits (visit cfg fuel p (index + 1) (search cfg fuel p index)) current octalDigits

/-- The solver: `Search(len - 1, 0)`; not defined for `len < 2` (R147, R152). -/
def solve (cfg : Config) (fuel : Nat) (p : Program) : SearchResult :=
  if p.length < 2 then .notDefined else search cfg fuel p (p.length - 1) 0

end Sys2Proof.Machine
end

