-- ==== Sys2Proof/Safety.lean ====
section
/-! DEFINITION. The terms claims use: final states, invariants, well-formed programs, and the answer of one
candidate of the solver. -/

namespace Sys2Proof.Safety

open Sys2Proof.Machine

/-- A final state: no fault, and halted (R77). -/
abbrev Final (s : State) : Prop := s.fault = none ∧ s.len ≤ s.pc + 1

/-- The state after exactly `n` steps, where every one of them answers a next state (R76). -/
def stepsN : Nat → State → Option State
  | 0, s => some s
  | n + 1, s =>
    match step s with
    | .next t => stepsN n t
    | _ => none

/-- `v` is what the legal combo operand cell `o` resolves to in `s` (R57, the table's rows 0 to 6). -/
abbrev ComboValue (o : Cell) (s : State) (v : Nat) : Prop :=
  (o.toNat ≤ 3 ∧ v = o.toNat) ∨ (o.toNat = 4 ∧ v = s.a) ∨ (o.toNat = 5 ∧ v = s.b) ∨
    (o.toNat = 6 ∧ v = s.c)

/-- Every register is below `2^m` (R14). -/
abbrev RegsBelow (m : Nat) (s : State) : Prop := s.a < 2 ^ m ∧ s.b < 2 ^ m ∧ s.c < 2 ^ m

/-- The bound of R17 on the program counter. -/
abbrev PcBounded (s : State) : Prop := s.pc ≤ max s.len 7

/-- A set latch tells the truth about the instruction at `pc` (R20, R111): the condition, the recorded
cell and the recorded index of each cause. -/
def LatchTruthful (s : State) : Prop :=
  ∀ r, s.fault = some r →
    ∃ opc o, s.memRead s.pc = some opc ∧ s.memRead (s.pc + 1) = some o ∧ r.fpc = s.pc ∧
      match r.cause with
      | .illegalOpcode => 7 < opc.toNat ∧ r.value = opc
      | .reservedComboOperand =>
        opc.toNat ∈ [0, 2, 5, 6, 7] ∧ o.toNat = 7 ∧ r.value = o
      | .operandOutOfRange =>
        opc.toNat ∈ [0, 1, 2, 3, 5, 6, 7] ∧ 7 < o.toNat ∧ r.value = o
      | .misalignedJumpTarget =>
        s.cfg.strictJumpAlign = true ∧ opc.toNat = 3 ∧ s.a ≠ 0 ∧ o.toNat % 2 = 1 ∧ r.value = o

/-- A check of every pair of a program read from index 0; a last cell without an operand is no pair. -/
def allPairs (check : Cell → Cell → Bool) : Program → Bool
  | opc :: o :: rest => check opc o && allPairs check rest
  | _ => true

/-- The conditions of R133 on one pair: no combo operand 7, no odd jump operand. -/
def pairWellFormed (opc o : Cell) : Bool :=
  (!(opc.toNat ∈ [0, 2, 5, 6, 7]) || o.toNat ≠ 7) && (opc.toNat ≠ 3 || o.toNat % 2 == 0)

/-- A well-formed program (R133). -/
def programWellFormed (p : Program) : Bool :=
  p.all (fun x => x.toNat ≤ 7) && allPairs pairWellFormed p

/-- No pair of the program, read from index 0, is a jump (R80). -/
def jumpFree (p : Program) : Bool := allPairs (fun opc _ => opc.toNat ≠ 3) p

/-- The invariant of a run of a well-formed program: no fault, an even `pc` (R133). -/
abbrev SafeRun (s : State) : Prop :=
  programWellFormed s.prog = true ∧ s.fault = none ∧ s.pc % 2 = 0

/-- What one candidate of the level `index` of the search answers: its trial and, where that matches, the
validation at index 0 and the level below elsewhere (R147, steps 2 to 5). -/
def candidateAnswer (cfg : Config) (fuel : Nat) (p : Program) : Nat → Nat → SearchResult
  | 0, cand => visit cfg fuel p 0 (validate cfg fuel p) cand
  | index + 1, cand => visit cfg fuel p (index + 1) (search cfg fuel p index) cand

end Sys2Proof.Safety
end

