-- ==== Sys2Proof/Certificates/Slice0/Obligations.lean ====
section
/-! DEFINITION. The statements for the provers. Each docstring names the passage of spec/ it formalises;
where a clause rests on a choice of the spec's own (a decision D<n>, an inference marked there as
derived) or of this model (a log entry), the docstring says so. -/

open Sys2Proof Sys2Proof.Machine Sys2Proof.Safety

/-! ### Encoding -/

/-- Words written out from the opcode map and the pair view (R52, R61): one of every opcode, an operand
at the top of each mode's range, and the three kinds of rejected pair. -/
def Obligations.DecodeSampleWords : Prop :=
  decodeTableWord 16 0x0001 = some (.adv 1) ∧ decodeTableWord 16 0x0006 = some (.adv 6) ∧
  decodeTableWord 16 0x0107 = some (.bxl 7) ∧ decodeTableWord 16 0x0204 = some (.bst 4) ∧
  decodeTableWord 16 0x0307 = some (.jnz 7) ∧ decodeTableWord 16 0x0400 = some (.bxc 0) ∧
  decodeTableWord 16 0x04C8 = some (.bxc 200) ∧ decodeTableWord 16 0x0504 = some (.out 4) ∧
  decodeTableWord 16 0x0603 = some (.bdv 3) ∧ decodeTableWord 16 0x0706 = some (.cdv 6) ∧
  decodeTableWord 16 0x0007 = none ∧ decodeTableWord 16 0x0108 = none ∧
  decodeTableWord 16 0x0900 = none

/-- Every well-formed instruction, with its operand cell at every legal value, is what its two cells
decode to (30_encoding.md sections 1, 2 and 4). -/
def Obligations.DecodeOfEncodeIsIdentity : Prop :=
  ∀ i : Instr, i.wellFormed = true → decode (encode i).1 (encode i).2 = .ok i

/-- What the decoder accepts is a well-formed instruction, and its two cells are the ones decoded: no
pair has two readings (30_encoding.md sections 2 and 4). -/
def Obligations.EncodeOfDecodeIsIdentity : Prop :=
  ∀ (opc o : Cell) (i : Instr), decode opc o = .ok i → i.wellFormed = true ∧ encode i = (opc, o)

/-- The complete classification of the pairs (30_encoding.md section 4, table). The cause numbers are the
spec's decision D10, the order of the checks its decision D11, the unchecked operand of opcode 4 its
decision D7. -/
def Obligations.PairsAreClassified : Prop :=
  ∀ opc o : Cell,
    (7 < opc.toNat → decode opc o = .error ⟨.illegalOpcode, opc⟩) ∧
    (opc.toNat ∈ [0, 2, 5, 6, 7] →
      (o.toNat ≤ 6 → ∃ i, decode opc o = .ok i ∧ i.mode = .combo ∧ encode i = (opc, o)) ∧
      (o.toNat = 7 → decode opc o = .error ⟨.reservedComboOperand, o⟩) ∧
      (7 < o.toNat → decode opc o = .error ⟨.operandOutOfRange, o⟩)) ∧
    (opc.toNat ∈ [1, 3] →
      (o.toNat ≤ 7 → ∃ i, decode opc o = .ok i ∧ i.mode = .literal ∧ encode i = (opc, o)) ∧
      (7 < o.toNat → decode opc o = .error ⟨.operandOutOfRange, o⟩)) ∧
    (opc.toNat = 4 → decode opc o = .ok (.bxc o))

/-- A word placed where the fetch reads is the instruction the next step runs, whatever `pc` is. Placing
it stands for the construction of an instance with that program: the model's choice, log entry 2. -/
def Obligations.PlacedWordRunsNext : Prop :=
  ∀ (s : State) (nbits w : Nat) (i : Instr), decodeTableWord nbits w = some i →
    step (s.withFetchWord nbits w) = exec i (s.withFetchWord nbits w)

/-! ### Operand resolution -/

/-- R56, whole: the value of a literal operand, its range, and the decode error of the two instructions
that use the mode, in any state. -/
def Obligations.LiteralOperandResolution : Prop :=
  ∀ o : Cell,
    (o.toNat ≤ 7 → lit o = .ok o.toNat) ∧
    (7 < o.toNat → lit o = .error .operandOutOfRange ∧
      ∀ s : State,
        exec (.bxl o) s = .next { s with fault := some ⟨.operandOutOfRange, s.pc, o⟩ } ∧
        exec (.jnz o) s = .next { s with fault := some ⟨.operandOutOfRange, s.pc, o⟩ })

/-- R57, whole: every row of the table for `combo`, and the decode errors of the five instructions that
use the mode, in any state. -/
def Obligations.ComboOperandResolution : Prop :=
  ∀ (o : Cell) (s : State),
    (o.toNat ≤ 3 → combo o s = .ok o.toNat) ∧
    (o.toNat = 4 → combo o s = .ok s.a) ∧
    (o.toNat = 5 → combo o s = .ok s.b) ∧
    (o.toNat = 6 → combo o s = .ok s.c) ∧
    (o.toNat = 7 → combo o s = .error .reservedComboOperand ∧
      ∀ i ∈ [Instr.adv o, .bst o, .out o, .bdv o, .cdv o],
        exec i s = .next { s with fault := some ⟨.reservedComboOperand, s.pc, o⟩ }) ∧
    (7 < o.toNat → combo o s = .error .operandOutOfRange ∧
      ∀ i ∈ [Instr.adv o, .bst o, .out o, .bdv o, .cdv o],
        exec i s = .next { s with fault := some ⟨.operandOutOfRange, s.pc, o⟩ })

/-! ### The instructions: result, completion, exceptions -/

/-- R86, whole: `adv` completes on every legal operand with A divided; its encoding, exceptions and
corner cases. The latch that records an exception is the spec's decision D9. -/
def Obligations.AdvDividesAIntoA : Prop :=
  ∀ (o : Cell) (s : State),
    (∀ v, ComboValue o s v → exec (.adv o) s = .next { s with a := s.a / 2 ^ v, pc := s.pc + 2 }) ∧
    (o.toNat = 0 → exec (.adv o) s = .next { s with pc := s.pc + 2 }) ∧
    (o.toNat = 4 → exec (.adv o) s = .next { s with a := 0, pc := s.pc + 2 }) ∧
    (o.toNat = 7 →
      exec (.adv o) s = .next { s with fault := some ⟨.reservedComboOperand, s.pc, o⟩ }) ∧
    (7 < o.toNat →
      exec (.adv o) s = .next { s with fault := some ⟨.operandOutOfRange, s.pc, o⟩ }) ∧
    (o.toNat ≤ 6 → decode 0 o = .ok (.adv o))

/-- R87, whole: `bdv` completes on every legal operand with the quotient in B; its encoding, exceptions
and corner cases. The latch is the spec's decision D9. -/
def Obligations.BdvDividesAIntoB : Prop :=
  ∀ (o : Cell) (s : State),
    (∀ v, ComboValue o s v → exec (.bdv o) s = .next { s with b := s.a / 2 ^ v, pc := s.pc + 2 }) ∧
    (o.toNat = 0 → exec (.bdv o) s = .next { s with b := s.a, pc := s.pc + 2 }) ∧
    (o.toNat = 4 → exec (.bdv o) s = .next { s with b := 0, pc := s.pc + 2 }) ∧
    (o.toNat = 7 →
      exec (.bdv o) s = .next { s with fault := some ⟨.reservedComboOperand, s.pc, o⟩ }) ∧
    (7 < o.toNat →
      exec (.bdv o) s = .next { s with fault := some ⟨.operandOutOfRange, s.pc, o⟩ }) ∧
    (o.toNat ≤ 6 → decode 6 o = .ok (.bdv o))

/-- R88, whole: `cdv` completes on every legal operand with the quotient in C; its encoding, exceptions
and corner cases. The latch is the spec's decision D9. -/
def Obligations.CdvDividesAIntoC : Prop :=
  ∀ (o : Cell) (s : State),
    (∀ v, ComboValue o s v → exec (.cdv o) s = .next { s with c := s.a / 2 ^ v, pc := s.pc + 2 }) ∧
    (o.toNat = 0 → exec (.cdv o) s = .next { s with c := s.a, pc := s.pc + 2 }) ∧
    (o.toNat = 4 → exec (.cdv o) s = .next { s with c := 0, pc := s.pc + 2 }) ∧
    (o.toNat = 7 →
      exec (.cdv o) s = .next { s with fault := some ⟨.reservedComboOperand, s.pc, o⟩ }) ∧
    (7 < o.toNat →
      exec (.cdv o) s = .next { s with fault := some ⟨.operandOutOfRange, s.pc, o⟩ }) ∧
    (o.toNat ≤ 6 → decode 7 o = .ok (.cdv o))

/-- `bxl` completes on every legal operand with B XOR the literal; bits 3 and above are kept; twice
restores B; its encoding and exception (42_bitwise.md section 2). What XOR is the spec takes from general
knowledge (42_bitwise.md section 1, G1; log entry 10, PRESUMED). The latch is the spec's decision D9. -/
def Obligations.BxlXorsLiteralIntoB : Prop :=
  ∀ (o : Cell) (s : State),
    (o.toNat ≤ 7 →
      exec (.bxl o) s = .next { s with b := s.b ^^^ o.toNat, pc := s.pc + 2 } ∧
      (s.b ^^^ o.toNat) / 8 = s.b / 8 ∧ (s.b ^^^ o.toNat) ^^^ o.toNat = s.b ∧
      decode 1 o = .ok (.bxl o)) ∧
    (o.toNat = 0 → exec (.bxl o) s = .next { s with pc := s.pc + 2 }) ∧
    (7 < o.toNat →
      exec (.bxl o) s = .next { s with fault := some ⟨.operandOutOfRange, s.pc, o⟩ })

/-- R92, whole: `bst` completes on every legal operand with its low three bits in B; its encoding,
exceptions and corner cases. The latch is the spec's decision D9. -/
def Obligations.BstMasksOperandIntoB : Prop :=
  ∀ (o : Cell) (s : State),
    (∀ v, ComboValue o s v →
      exec (.bst o) s = .next { s with b := v % 8, pc := s.pc + 2 } ∧ v % 8 ≤ 7) ∧
    (o.toNat ≤ 3 → exec (.bst o) s = .next { s with b := o.toNat, pc := s.pc + 2 }) ∧
    (o.toNat = 7 →
      exec (.bst o) s = .next { s with fault := some ⟨.reservedComboOperand, s.pc, o⟩ }) ∧
    (7 < o.toNat →
      exec (.bst o) s = .next { s with fault := some ⟨.operandOutOfRange, s.pc, o⟩ }) ∧
    (o.toNat ≤ 6 → decode 2 o = .ok (.bst o))

/-- `bxc` completes whatever its operand cell holds, with B XOR C in B (42_bitwise.md section 4). What XOR
is the spec takes from general knowledge (42_bitwise.md section 1, G1; log entry 10, PRESUMED). That no
operand cell is refused is the spec's decision D7. -/
def Obligations.BxcXorsCIntoB : Prop :=
  ∀ (o : Cell) (s : State),
    exec (.bxc o) s = .next { s with b := s.b ^^^ s.c, pc := s.pc + 2 } ∧
    (s.c = 0 → exec (.bxc o) s = .next { s with pc := s.pc + 2 }) ∧
    (s.b = s.c → exec (.bxc o) s = .next { s with b := 0, pc := s.pc + 2 }) ∧
    (s.b ^^^ s.c) ^^^ s.c = s.b ∧ decode 4 o = .ok (.bxc o)

/-- R96, whole: `jnz` completes, taken or not, on every legal operand; its encoding and exceptions.
That the operand is checked when the jump is not taken is the spec's decision D6, the alignment
parameter its decision D8, the latch its decision D9. -/
def Obligations.JnzJumpsWhenANonzero : Prop :=
  ∀ (o : Cell) (s : State),
    (o.toNat ≤ 7 →
      (s.a = 0 → exec (.jnz o) s = .next { s with pc := s.pc + 2 }) ∧
      (s.a ≠ 0 → ¬(s.cfg.strictJumpAlign = true ∧ o.toNat % 2 = 1) →
        exec (.jnz o) s = .next { s with pc := o.toNat }) ∧
      (s.a ≠ 0 → s.cfg.strictJumpAlign = true → o.toNat % 2 = 1 →
        exec (.jnz o) s = .next { s with fault := some ⟨.misalignedJumpTarget, s.pc, o⟩ }) ∧
      decode 3 o = .ok (.jnz o)) ∧
    (7 < o.toNat →
      exec (.jnz o) s = .next { s with fault := some ⟨.operandOutOfRange, s.pc, o⟩ })

/-- R101, whole, for the output buffer of unbounded capacity the rule speaks of (`OUT_CAP` unbounded):
`out` completes on every legal operand with its low three bits appended; its encoding and exceptions.
The latch is the spec's decision D9. -/
def Obligations.OutAppendsLowThreeBits : Prop :=
  ∀ (o : Cell) (s : State), s.cfg.outCap = none →
    (∀ v, ComboValue o s v →
      exec (.out o) s = .next { s with out := s.out ++ [BitVec.ofNat 3 (v % 8)], pc := s.pc + 2 }) ∧
    (o.toNat ≤ 3 →
      exec (.out o) s = .next { s with out := s.out ++ [BitVec.ofNat 3 o.toNat], pc := s.pc + 2 }) ∧
    (o.toNat = 7 →
      exec (.out o) s = .next { s with fault := some ⟨.reservedComboOperand, s.pc, o⟩ }) ∧
    (7 < o.toNat →
      exec (.out o) s = .next { s with fault := some ⟨.operandOutOfRange, s.pc, o⟩ }) ∧
    (o.toNat ≤ 6 → decode 5 o = .ok (.out o))

/-- With a finite `OUT_CAP`: `out` completes below the capacity and is refused at it. The refusal is the
model's reading of row U8 (log entry 8): the spec gives no buffer-full behaviour. -/
def Obligations.OutWithFiniteCapacity : Prop :=
  ∀ (o : Cell) (s : State) (v cap : Nat), s.cfg.outCap = some cap → ComboValue o s v →
    (s.out.length < cap →
      exec (.out o) s = .next { s with out := s.out ++ [BitVec.ofNat 3 v], pc := s.pc + 2 }) ∧
    (cap ≤ s.out.length → exec (.out o) s = .refused .outputCapacityExceeded)

/-! ### Frames -/

/-- Frame of `adv`, `bdv`, `cdv`: of the registers only the destination may change; the output, the
program (every cell of it) and the parameters do not; the latch changes only when the operand is not
legal, and then nothing else does (41_divide.md sections 2 to 4, 10_state.md section 1). -/
def Obligations.DivideFrame : Prop :=
  ∀ (o : Cell) (s t : State),
    (exec (.adv o) s = .next t → t.b = s.b ∧ t.c = s.c) ∧
    (exec (.bdv o) s = .next t → t.a = s.a ∧ t.c = s.c) ∧
    (exec (.cdv o) s = .next t → t.a = s.a ∧ t.b = s.b) ∧
    ∀ i ∈ [Instr.adv o, .bdv o, .cdv o], exec i s = .next t →
      t.out = s.out ∧ t.cfg = s.cfg ∧ t.len = s.len ∧ (∀ j, t.memRead j = s.memRead j) ∧
      (o.toNat ≤ 6 → t.fault = s.fault) ∧ (7 ≤ o.toNat → t = { s with fault := t.fault })

/-- Frame of `bxl`, `bst`, `bxc`: A, C, the output, the program and the parameters do not change; the
latch changes only when the operand is not legal, and then nothing else does; after `bxc` it never
changes (42_bitwise.md sections 2 to 4). -/
def Obligations.BitwiseFrame : Prop :=
  ∀ (o : Cell) (s t : State),
    (∀ i ∈ [Instr.bxl o, .bst o, .bxc o], exec i s = .next t →
      t.a = s.a ∧ t.c = s.c ∧ t.out = s.out ∧ t.cfg = s.cfg ∧ t.len = s.len ∧
      (∀ j, t.memRead j = s.memRead j) ∧
      (i.wellFormed = true → t.fault = s.fault) ∧
      (i.wellFormed = false → t = { s with fault := t.fault })) ∧
    (exec (.bxc o) s = .next t → t.fault = s.fault)

/-- Frame of `jnz`: no register, no output, no cell changes; the latch changes only for an operand above
7 or a refused odd target, and then `pc` does not (43_jump.md section 2). -/
def Obligations.JumpFrame : Prop :=
  ∀ (o : Cell) (s t : State), exec (.jnz o) s = .next t →
    t.a = s.a ∧ t.b = s.b ∧ t.c = s.c ∧ t.out = s.out ∧ t.cfg = s.cfg ∧ t.len = s.len ∧
    (∀ j, t.memRead j = s.memRead j) ∧
    (t.fault = s.fault ∨
      (t.pc = s.pc ∧ (7 < o.toNat ∨
        (s.cfg.strictJumpAlign = true ∧ s.a ≠ 0 ∧ o.toNat % 2 = 1))))

/-- Frame of `out`: no register and no cell changes; the elements already emitted stay, and one is added
exactly when the operand is legal; otherwise only the latch changes (44_output.md section 2). -/
def Obligations.OutputFrame : Prop :=
  ∀ (o : Cell) (s t : State), exec (.out o) s = .next t →
    t.a = s.a ∧ t.b = s.b ∧ t.c = s.c ∧ t.cfg = s.cfg ∧ t.len = s.len ∧
    (∀ j, t.memRead j = s.memRead j) ∧
    (o.toNat ≤ 6 → t.fault = s.fault ∧ ∃ e, t.out = s.out ++ [e]) ∧
    (7 ≤ o.toNat → t = { s with fault := t.fault })

/-! ### The step -/

/-- In an unfaulted state whose two cells at `pc` decode to an instruction, the step is that instruction
executed, with nothing added around it (40_step_cycle.md section 2). -/
def Obligations.StepRunsDecodedInstruction : Prop :=
  ∀ (s : State) (opc o : Cell) (i : Instr), s.fault = none →
    s.memRead s.pc = some opc → s.memRead (s.pc + 1) = some o → decode opc o = .ok i →
    step s = exec i s

/-- A pair the decoder rejects takes its decode error: the latch is set to the cause, `pc` and the
offending cell, and everything else is as before (60_exceptions.md sections 1 to 3: the spec's decisions
D9, D10, D11). -/
def Obligations.StepTakesDecodeError : Prop :=
  ∀ (s : State) (opc o : Cell) (e : DecodeReject), s.fault = none →
    s.memRead s.pc = some opc → s.memRead (s.pc + 1) = some o → decode opc o = .error e →
    step s = .next { s with fault := some ⟨e.cause, s.pc, e.value⟩ }

/-- An opcode cell above 7 faults with cause 1 whatever the operand cell is, and a last cell with no
operand after it is never decoded, whatever it holds (30_encoding.md section 2, Scenario 3; the cause
number is the spec's decision D10, the reading of the halt condition its decision D18). That the missing
step of a halted machine is answered by the named stop `halted` is the model's choice, log entry 6. -/
def Obligations.IllegalOpcodeFaultsWhereDecoded : Prop :=
  ∀ (s : State) (opc : Cell), s.fault = none → s.memRead s.pc = some opc → 7 < opc.toNat →
    (s.pc + 1 < s.len →
      step s = .next { s with fault := some ⟨.illegalOpcode, s.pc, opc⟩ }) ∧
    (s.pc + 1 = s.len → step s = .fault .halted)

/-- Which states have a step (40_step_cycle.md section 1): none with a set latch, none when halted, and
every other one, for an output buffer of unbounded capacity. That a stopped machine has no step is the
spec's decision D5; that the model answers it with a named fault is log entry 6. -/
def Obligations.StepExistsUnlessStopped : Prop :=
  ∀ s : State,
    (∀ r, s.fault = some r → step s = .fault (.latched r)) ∧
    (s.fault = none → s.len ≤ s.pc + 1 → step s = .fault .halted) ∧
    (s.fault = none → s.pc + 1 < s.len → s.cfg.outCap = none → ∃ t, step s = .next t)

/-- The halt condition depends on `pc` and `len` only, is tested before every fetch, and is the normal end
of a run (40_step_cycle.md sections 1 and 3; its reading is the spec's decision D18). The answers of
Status, Output and Run there are 70_reset_and_hazards.md section 3 (the spec's decisions D13, D15). That
the missing step of a halted machine is answered by the named stop `halted` is the model's choice, log
entry 6. -/
def Obligations.HaltCondition : Prop :=
  ∀ s : State,
    (s.halted = true ↔ s.pc + 1 ≥ s.len) ∧
    (s.fault = none → s.pc + 1 ≥ s.len →
      step s = .fault .halted ∧ statusOf s = .halted ∧ outputOf s = some s.out ∧
      ∀ n, runFor n s = .ok s.out) ∧
    (s.fault = none → s.pc + 1 < s.len → step s ≠ .fault .halted ∧ statusOf s = .running)

/-- R16, whole: where `pc` stands after a step. -/
def Obligations.PcAfterStep : Prop :=
  ∀ (s t : State) (opc o : Cell), step s = .next t →
    s.memRead s.pc = some opc → s.memRead (s.pc + 1) = some o →
    (t.fault = none → t.pc = if opc.toNat = 3 ∧ s.a ≠ 0 then o.toNat else s.pc + 2) ∧
    (t.fault ≠ none → t.pc = s.pc)

/-- A step writes at most one of A, B, C and the output, with `pc`; or it faults and writes the latch
alone (10_state.md section 1, 40_step_cycle.md section 2; the faulting case is the spec's decision
D9). -/
def Obligations.StepWritesOneDestination : Prop :=
  ∀ s t : State, step s = .next t →
    (t.fault = none ∧
      (t = { s with pc := t.pc } ∨ t = { s with pc := t.pc, a := t.a } ∨
        t = { s with pc := t.pc, b := t.b } ∨ t = { s with pc := t.pc, c := t.c } ∨
        t = { s with pc := t.pc, out := t.out })) ∨
    (t.fault ≠ none ∧ t = { s with fault := t.fault })

/-- Which opcodes write what (10_state.md section 1, the table and its consequences): A only by opcode 0
and only downwards, B by 1, 2, 4, 6, C by 7, the output by 5 and by one element. -/
def Obligations.WritersOfEachRegister : Prop :=
  ∀ (s t : State) (opc : Cell), step s = .next t → s.memRead s.pc = some opc →
    (t.a ≠ s.a → opc.toNat = 0 ∧ t.a < s.a) ∧
    (t.b ≠ s.b → opc.toNat ∈ [1, 2, 4, 6]) ∧
    (t.c ≠ s.c → opc.toNat = 7) ∧
    (t.out ≠ s.out → opc.toNat = 5 ∧ ∃ e, t.out = s.out ++ [e])

/-- A step looks at no cell but the two at `pc`: another program of the same length with the same two
cells there gives the same step (30_encoding.md section 2, 20_memory.md section 1). -/
def Obligations.StepReadsOnlyFetchedPair : Prop :=
  ∀ (s t : State) (p : Program), step s = .next t → p.length = s.prog.length →
    p[s.pc]? = s.prog[s.pc]? → p[s.pc + 1]? = s.prog[s.pc + 1]? →
    step { s with prog := p } = .next { t with prog := p }

/-- No instruction reads the output buffer: with another content, of an unbounded buffer, the step does
the same and appends the same (10_state.md section 5). -/
def Obligations.OutputIsNeverRead : Prop :=
  ∀ (s t : State) (o' : List OutElem), s.cfg.outCap = none → step s = .next t →
    ∃ l : List OutElem, l.length ≤ 1 ∧ t.out = s.out ++ l ∧
      step { s with out := o' } = .next { t with out := o' ++ l }

/-! ### Invariants and whole runs -/

/-- After any step a set latch tells the truth about the instruction at `pc`: each cause's condition, the
index and the cell recorded (60_exceptions.md section 1 table: the spec's decisions D9, D10). -/
def Obligations.LatchTellsTheTruth : Prop :=
  ∀ s t : State, step s = .next t → LatchTruthful t

/-- Every step keeps the registers below `2^m`, for every `m` of at least 3: no instruction overflows
(10_state.md section 1, an inference the spec marks as derived). -/
def Obligations.StepKeepsRegistersBelow : Prop :=
  ∀ (m : Nat) (s t : State), 3 ≤ m → RegsBelow m s → step s = .next t → RegsBelow m t

/-- In every state of every run, from every construction, no register is longer than the longest initial
one, with a floor of 3 bits (10_state.md section 1, an inference the spec marks as derived). -/
def Obligations.RunNeverLengthensRegisters : Prop :=
  ∀ (cfg : Config) (a b c : Nat) (p : Program) (n : Nat) (t : State),
    stepsN n (State.fresh cfg a b c p) = some t →
    RegsBelow (max 3 (max (bitLen a) (max (bitLen b) (bitLen c)))) t

/-- Every step keeps `pc` at most `max(len, 7)` (10_state.md section 2, an inference the spec marks as
derived). -/
def Obligations.StepKeepsPcBounded : Prop :=
  ∀ s t : State, PcBounded s → step s = .next t → PcBounded t

/-- With `STRICT_JUMP_ALIGN`, every step keeps `pc` even (43_jump.md section 2: the spec's decision
D8). -/
def Obligations.StrictAlignmentKeepsPcEven : Prop :=
  ∀ s t : State, s.cfg.strictJumpAlign = true → s.pc % 2 = 0 → step s = .next t → t.pc % 2 = 0

/-- A run of a well-formed program never faults and never has an odd `pc`, under either alignment
setting: every step keeps this (70_reset_and_hazards.md section 2, an inference the spec marks as
derived). -/
def Obligations.WellFormedProgramNeverFaults : Prop :=
  ∀ s t : State, SafeRun s → step s = .next t → SafeRun t

/-- In a run of a well-formed program every state that is not halted has a step, and the step is no
fault, for an output buffer of unbounded capacity (70_reset_and_hazards.md section 2). -/
def Obligations.WellFormedProgramProgresses : Prop :=
  ∀ s : State, SafeRun s → s.pc + 1 < s.len → s.cfg.outCap = none →
    ∃ t, step s = .next t ∧ t.fault = none

/-- Along any number of steps the program and the parameters stay, the output only grows at its end, by
at most one element a step, and A never grows (20_memory.md section 9, 10_state.md sections 1, 4
and 5). -/
def Obligations.RunKeepsProgramAndExtendsOutput : Prop :=
  ∀ (n : Nat) (s t : State), stepsN n s = some t →
    t.prog = s.prog ∧ t.cfg = s.cfg ∧ t.a ≤ s.a ∧
    ∃ l : List OutElem, t.out = s.out ++ l ∧ l.length ≤ n

/-- A program with no jump at an even index takes at most `len / 2` steps from its construction
(40_step_cycle.md section 3, part (a) of an inference the spec marks as derived). -/
def Obligations.JumpFreeRunEnds : Prop :=
  ∀ (cfg : Config) (a b c : Nat) (p : Program) (n : Nat) (t : State), jumpFree p = true →
    stepsN n (State.fresh cfg a b c p) = some t → n ≤ p.length / 2

/-- `Run` with fuel answers `Ok` exactly with the whole output of a final state it reaches, and `Fatal`
exactly with the latch of a faulted state it reaches; a faulted run is never `Ok`
(40_step_cycle.md section 3; the fuel is the model's, log entry 9). -/
def Obligations.RunAnswersWhereItStops : Prop :=
  ∀ (n : Nat) (s : State),
    (∀ o, runFor n s = .ok o ↔
      ∃ k t, k ≤ n ∧ stepsN k s = some t ∧ Final t ∧ o = t.out) ∧
    (∀ r, runFor n s = .fatal r ↔
      ∃ k t, k ≤ n ∧ stepsN k s = some t ∧ t.fault = some r)

/-- A faulted machine is never final, has no output, and the host's `Step` and `Run` leave it as it is
(60_exceptions.md sections 3 and 4, 70_reset_and_hazards.md section 3: the spec's decisions D5, D13,
D15). -/
def Obligations.FaultedMachineStaysFaulted : Prop :=
  ∀ (s : State) (r : FaultRecord), s.fault = some r →
    statusOf s = .faulted r ∧ outputOf s = none ∧ hostStep s = .next s ∧
    ∀ n, runFor n s = .fatal r

/-- The host's Step, Status and Output in every state (70_reset_and_hazards.md section 3: the spec's
decisions D5, D13, D15). Step is the machine's step where there is one and no effect where there is none,
in a halted as in a faulted state; a refused step (a finite `OUT_CAP`, log entry 8) is refused to the host
too. Output answers in a final state only: there is no result while the machine runs. -/
def Obligations.HostStepAndOutputInEveryState : Prop :=
  ∀ s : State,
    (∀ t, step s = .next t → hostStep s = .next t) ∧
    (∀ r, step s = .refused r → hostStep s = .refused r) ∧
    (s.fault ≠ none → hostStep s = .next s) ∧
    (s.fault = none → s.len ≤ s.pc + 1 → hostStep s = .next s) ∧
    (s.fault = none → s.pc + 1 < s.len →
      hostStep s = step s ∧ statusOf s = .running ∧ outputOf s = none) ∧
    (∀ o, outputOf s = some o ↔ Final s ∧ o = s.out)

/-! ### The shared operations -/

/-- The laws of the shared division (41_divide.md section 1: the rule of the shared operation, and laws
the spec marks as derived from it). -/
def Obligations.ShiftDivLaws : Prop :=
  ∀ a n m : Nat,
    shiftDiv a n = a / 2 ^ n ∧ shiftDiv a 0 = a ∧ shiftDiv 0 n = 0 ∧
    (shiftDiv a n = 0 ↔ a < 2 ^ n) ∧ (bitLen a ≤ n → shiftDiv a n = 0) ∧ shiftDiv a n ≤ a ∧
    shiftDiv (shiftDiv a n) m = shiftDiv a (n + m) ∧
    shiftDiv 7 1 = 3 ∧ shiftDiv 8 3 = 1

/-- The two bitwise operations, bit by bit (42_bitwise.md section 1, a passage the spec marks as general
knowledge, G1; log entry 10). -/
def Obligations.BitwiseOperationLaws : Prop :=
  ∀ a b : Nat,
    (∀ i, (bitXor a b).testBit i = (a.testBit i != b.testBit i)) ∧
    bitLen (bitXor a b) ≤ max (bitLen a) (bitLen b) ∧
    (∀ i, (low3 a).testBit i = (decide (i < 3) && a.testBit i)) ∧ low3 a = a % 8

/-! ### Construction and reset -/

/-- `Construct` gives the state of the table, for every input it accepts: every input when `XLEN` is
unbounded, and for a finite `XLEN` of at least 3 every one whose registers fit (10_state.md section 8;
the latch is the spec's decision D9, the finite widths its decision D1). -/
def Obligations.ConstructGivesResetState : Prop :=
  ∀ (cfg : Config) (a b c : Nat) (p : Program),
    (cfg.xlen = none ∨ ∃ w, cfg.xlen = some w ∧ 3 ≤ w ∧ a < 2 ^ w ∧ b < 2 ^ w ∧ c < 2 ^ w) →
    construct cfg a b c p =
      .ok { a := a, b := b, c := c, pc := 0, out := [], fault := none, prog := p, cfg := cfg }

/-- A finite `XLEN` below 3, or one an initial register does not fit, is refused at construction
(93_implementation_defined.md row U7: the spec's decision D1). -/
def Obligations.ConstructRefusesMisfits : Prop :=
  ∀ (cfg : Config) (a b c w : Nat) (p : Program), cfg.xlen = some w →
    (w < 3 → construct cfg a b c p = .error .widthBelowThree) ∧
    (3 ≤ w → 2 ^ w ≤ a ∨ 2 ^ w ≤ b ∨ 2 ^ w ≤ c →
      construct cfg a b c p = .error .registerTooWide)

/-- After reset: `pc` is 0, the output empty, no fault (10_state.md section 8), with the model's own
choice of registers, program and parameters (log entries 1 and 3); and every construction, the reset
state among them, meets the invariants stated above. -/
def Obligations.ConstructionMeetsInvariants : Prop :=
  (State.reset.pc = 0 ∧ State.reset.out = [] ∧ State.reset.fault = none ∧
    State.reset = State.fresh { } 0 0 0 []) ∧
  ∀ (cfg : Config) (a b c : Nat) (p : Program),
    PcBounded (State.fresh cfg a b c p) ∧ LatchTruthful (State.fresh cfg a b c p) ∧
    RegsBelow (max (bitLen a) (max (bitLen b) (bitLen c))) (State.fresh cfg a b c p) ∧
    (programWellFormed p = true → SafeRun (State.fresh cfg a b c p))

/-! ### The host's Quine Solver -/

/-- An accepted answer is a quine input: the full program run on it, with B = C = 0, outputs the program
(70_reset_and_hazards.md section 6; the fuel is the model's, log entry 9). -/
def Obligations.SolverAnswersAreQuines : Prop :=
  ∀ (cfg : Config) (fuel : Nat) (p : Program) (a : Nat), solve cfg fuel p = .found a →
    ∃ s o, construct cfg a 0 0 p = .ok s ∧ runFor fuel s = .ok o ∧
      o.map BitVec.toNat = p.map BitVec.toNat

/-- What one candidate's trial and validation answer (70_reset_and_hazards.md section 6, steps 2 to 5, and
60_exceptions.md section 4). A trial is a run of the truncated program, a validation one of the full
program, each from a fresh construction with B = C = 0. A decode error in either is propagated and never
counted as a mismatch; so are the answers the model adds (log entries 9 and 14): `unfinished`, `refused`,
`notConstructed`. Otherwise a trial goes on exactly when the first element emitted is `P[index]`, and a
validation accepts exactly when the whole output is the program; no element is no match (the spec's
decision D16). -/
def Obligations.CandidateAnswersFollowItsRuns : Prop :=
  ∀ (cfg : Config) (fuel : Nat) (p : Program) (index cand : Nat) (deeper : Nat → SearchResult),
    (∀ r, construct cfg cand 0 0 (p.take (p.length - 2)) = .error r →
      visit cfg fuel p index deeper cand = .notConstructed r) ∧
    (∀ r, construct cfg cand 0 0 p = .error r → validate cfg fuel p cand = .notConstructed r) ∧
    (∀ s, construct cfg cand 0 0 (p.take (p.length - 2)) = .ok s →
      (∀ f, runFor fuel s = .fatal f → visit cfg fuel p index deeper cand = .fatal f) ∧
      (∀ u, runFor fuel s = .unfinished u → visit cfg fuel p index deeper cand = .unfinished) ∧
      (∀ r, runFor fuel s = .refused r → visit cfg fuel p index deeper cand = .refused r) ∧
      (∀ o, runFor fuel s = .ok o →
        ((∃ e x, o.head? = some e ∧ p[index]? = some x ∧ e.toNat = x.toNat) →
          visit cfg fuel p index deeper cand = deeper cand) ∧
        (¬(∃ e x, o.head? = some e ∧ p[index]? = some x ∧ e.toNat = x.toNat) →
          visit cfg fuel p index deeper cand = .notFound))) ∧
    (∀ s, construct cfg cand 0 0 p = .ok s →
      (∀ f, runFor fuel s = .fatal f → validate cfg fuel p cand = .fatal f) ∧
      (∀ u, runFor fuel s = .unfinished u → validate cfg fuel p cand = .unfinished) ∧
      (∀ r, runFor fuel s = .refused r → validate cfg fuel p cand = .refused r) ∧
      (∀ o, runFor fuel s = .ok o →
        (o.map BitVec.toNat = p.map BitVec.toNat → validate cfg fuel p cand = .found cand) ∧
        (o.map BitVec.toNat ≠ p.map BitVec.toNat → validate cfg fuel p cand = .notFound)))

/-- `Search(index, current)`: the first digit, in ascending order, whose answer is not "not found" decides
the level, at every index and for every current value; the level fails exactly when every digit does
(70_reset_and_hazards.md section 6). A digit's answer is that of its trial and, where the trial matches,
of the validation at index 0 and of the search one index down elsewhere (`candidateAnswer`). A decode
error in a digit's trial aborts the search with it instead of counting as a mismatch, and so does one in
the validation (60_exceptions.md section 4). The answers `unfinished`, `refused` and `notConstructed`,
which also decide a level, are the model's (log entries 9 and 14). -/
def Obligations.SearchLevelTakesFirstAnswer : Prop :=
  (∀ (attempt : Nat → SearchResult) (current : Nat) (r : SearchResult),
    (∀ d < 8, r ≠ .notFound → attempt (current * 8 + d) = r →
      (∀ d' < d, attempt (current * 8 + d') = .notFound) →
      tryDigits attempt current octalDigits = r) ∧
    ((∀ d < 8, attempt (current * 8 + d) = .notFound) ↔
      tryDigits attempt current octalDigits = .notFound)) ∧
  ∀ (cfg : Config) (fuel : Nat) (p : Program) (index current : Nat),
    (∀ d < 8, candidateAnswer cfg fuel p index (current * 8 + d) ≠ .notFound →
      (∀ d' < d, candidateAnswer cfg fuel p index (current * 8 + d') = .notFound) →
      search cfg fuel p index current = candidateAnswer cfg fuel p index (current * 8 + d)) ∧
    ((∀ d < 8, candidateAnswer cfg fuel p index (current * 8 + d) = .notFound) ↔
      search cfg fuel p index current = .notFound) ∧
    (∀ cand f deeper, trialRun cfg fuel cand (truncated p) = .error (.fatal f) →
      visit cfg fuel p index deeper cand = .fatal f) ∧
    (∀ cand f, trialRun cfg fuel cand p = .error (.fatal f) →
      validate cfg fuel p cand = .fatal f) ∧
    (∀ d < 8, ∀ f, trialRun cfg fuel (current * 8 + d) (truncated p) = .error (.fatal f) →
      (∀ d' < d, candidateAnswer cfg fuel p index (current * 8 + d') = .notFound) →
      search cfg fuel p index current = .fatal f) ∧
    (∀ d < 8, ∀ f o, trialRun cfg fuel (current * 8 + d) (truncated p) = .ok o →
      firstMatches o p 0 = true → trialRun cfg fuel (current * 8 + d) p = .error (.fatal f) →
      (∀ d' < d, candidateAnswer cfg fuel p 0 (current * 8 + d') = .notFound) →
      search cfg fuel p 0 current = .fatal f)
end

