-- ==== Sys2Proof/Laws/Decode.lean ====
section
/-! SUPPORT. What the decoder can answer (R53, R54, R60, R73). -/

namespace Sys2Proof

/-- The opcode cell selects an instruction exactly when it is at most 7 (R53, R54). -/
theorem decodeOpcode_eq_none_iff (opc o : Cell) : decodeOpcode opc o = none ↔ 7 < opc.toNat := by
  unfold decodeOpcode
  split <;> simp_all
  by_contra hle
  interval_cases opc.toNat <;> simp_all

/-- A selected instruction holds both cells: the opcode cell is its own and the operand is the cell
fetched (R50, R52). -/
theorem decodeOpcode_eq_some_iff (opc o : Cell) (i : Instr) :
    decodeOpcode opc o = some i ↔ opcodeCell i = opc ∧ i.operand = o := by
  constructor
  · intro h
    unfold decodeOpcode at h
    split at h <;> simp at h
    all_goals
      subst h
      exact ⟨BitVec.eq_of_toNat_eq (by simp_all [opcodeCell]), rfl⟩
  · rintro ⟨rfl, rfl⟩
    cases i <;> rfl

/-- The decoder's range check passes exactly on the operand cells legal in the mode (R51, R60). -/
theorem operandCheck_eq_none_iff (m : OperandMode) (o : Cell) :
    operandCheck m o = none ↔ m.legal o = true := by
  cases m <;> simp [operandCheck, OperandMode.legal]
  split <;> simp_all

/-- Acceptance, whole: the opcode selects the instruction and the operand passes its mode's check. -/
theorem decode_eq_ok_iff (opc o : Cell) (i : Instr) :
    decode opc o = .ok i ↔ decodeOpcode opc o = some i ∧ operandCheck i.mode o = none := by
  unfold decode
  cases decodeOpcode opc o with
  | none => simp
  | some j =>
    cases hk : operandCheck j.mode o with
    | none =>
      simp only [hk, Except.ok.injEq, Option.some.injEq]
      exact ⟨by rintro rfl; exact ⟨rfl, hk⟩, And.left⟩
    | some k =>
      simp only [hk, reduceCtorEq, Option.some.injEq, false_iff]
      rintro ⟨rfl, hn⟩
      simp [hk] at hn

/-- Rejection, whole (R53, R56, R57, R112). -/
theorem decode_eq_error_iff (opc o : Cell) (e : DecodeReject) :
    decode opc o = .error e ↔
      (7 < opc.toNat ∧ e = ⟨.illegalOpcode, opc⟩) ∨
      (∃ i k, decodeOpcode opc o = some i ∧ operandCheck i.mode o = some k ∧ e = ⟨k, o⟩) := by
  rw [← decodeOpcode_eq_none_iff opc o]
  unfold decode
  cases decodeOpcode opc o with
  | none => simp [eq_comm]
  | some j => cases hk : operandCheck j.mode o <;> simp [hk, eq_comm]

end Sys2Proof
end

