-- ==== Sys2Proof/Laws/State.lean ====
section
/-! SUPPORT. One lemma per field per update of State, so that no proof unfolds a record update. -/

namespace Sys2Proof.Machine

/-! Writing A (R12). -/

@[simp] theorem State.setRegA_a (s : State) (v : Nat) : (s.setReg .A v).a = v := rfl
@[simp] theorem State.setRegA_b (s : State) (v : Nat) : (s.setReg .A v).b = s.b := rfl
@[simp] theorem State.setRegA_c (s : State) (v : Nat) : (s.setReg .A v).c = s.c := rfl
@[simp] theorem State.setRegA_pc (s : State) (v : Nat) : (s.setReg .A v).pc = s.pc := rfl
@[simp] theorem State.setRegA_out (s : State) (v : Nat) : (s.setReg .A v).out = s.out := rfl
@[simp] theorem State.setRegA_fault (s : State) (v : Nat) : (s.setReg .A v).fault = s.fault := rfl
@[simp] theorem State.setRegA_prog (s : State) (v : Nat) : (s.setReg .A v).prog = s.prog := rfl
@[simp] theorem State.setRegA_cfg (s : State) (v : Nat) : (s.setReg .A v).cfg = s.cfg := rfl

/-! Writing B (R12). -/

@[simp] theorem State.setRegB_a (s : State) (v : Nat) : (s.setReg .B v).a = s.a := rfl
@[simp] theorem State.setRegB_b (s : State) (v : Nat) : (s.setReg .B v).b = v := rfl
@[simp] theorem State.setRegB_c (s : State) (v : Nat) : (s.setReg .B v).c = s.c := rfl
@[simp] theorem State.setRegB_pc (s : State) (v : Nat) : (s.setReg .B v).pc = s.pc := rfl
@[simp] theorem State.setRegB_out (s : State) (v : Nat) : (s.setReg .B v).out = s.out := rfl
@[simp] theorem State.setRegB_fault (s : State) (v : Nat) : (s.setReg .B v).fault = s.fault := rfl
@[simp] theorem State.setRegB_prog (s : State) (v : Nat) : (s.setReg .B v).prog = s.prog := rfl
@[simp] theorem State.setRegB_cfg (s : State) (v : Nat) : (s.setReg .B v).cfg = s.cfg := rfl

/-! Writing C (R12). -/

@[simp] theorem State.setRegC_a (s : State) (v : Nat) : (s.setReg .C v).a = s.a := rfl
@[simp] theorem State.setRegC_b (s : State) (v : Nat) : (s.setReg .C v).b = s.b := rfl
@[simp] theorem State.setRegC_c (s : State) (v : Nat) : (s.setReg .C v).c = v := rfl
@[simp] theorem State.setRegC_pc (s : State) (v : Nat) : (s.setReg .C v).pc = s.pc := rfl
@[simp] theorem State.setRegC_out (s : State) (v : Nat) : (s.setReg .C v).out = s.out := rfl
@[simp] theorem State.setRegC_fault (s : State) (v : Nat) : (s.setReg .C v).fault = s.fault := rfl
@[simp] theorem State.setRegC_prog (s : State) (v : Nat) : (s.setReg .C v).prog = s.prog := rfl
@[simp] theorem State.setRegC_cfg (s : State) (v : Nat) : (s.setReg .C v).cfg = s.cfg := rfl

/-! Writing any register leaves everything that is no register alone (R12). -/

@[simp] theorem State.setReg_pc (s : State) (r : Reg) (v : Nat) : (s.setReg r v).pc = s.pc := by
  cases r <;> rfl
@[simp] theorem State.setReg_out (s : State) (r : Reg) (v : Nat) : (s.setReg r v).out = s.out := by
  cases r <;> rfl
@[simp] theorem State.setReg_fault (s : State) (r : Reg) (v : Nat) : (s.setReg r v).fault = s.fault := by
  cases r <;> rfl
@[simp] theorem State.setReg_prog (s : State) (r : Reg) (v : Nat) : (s.setReg r v).prog = s.prog := by
  cases r <;> rfl
@[simp] theorem State.setReg_cfg (s : State) (r : Reg) (v : Nat) : (s.setReg r v).cfg = s.cfg := by
  cases r <;> rfl

/-! Advancing and jumping write `pc` only (R16). -/

@[simp] theorem State.advance_a (s : State) : (s.advance).a = s.a := rfl
@[simp] theorem State.advance_b (s : State) : (s.advance).b = s.b := rfl
@[simp] theorem State.advance_c (s : State) : (s.advance).c = s.c := rfl
@[simp] theorem State.advance_pc (s : State) : (s.advance).pc = s.pc + 2 := rfl
@[simp] theorem State.advance_out (s : State) : (s.advance).out = s.out := rfl
@[simp] theorem State.advance_fault (s : State) : (s.advance).fault = s.fault := rfl
@[simp] theorem State.advance_prog (s : State) : (s.advance).prog = s.prog := rfl
@[simp] theorem State.advance_cfg (s : State) : (s.advance).cfg = s.cfg := rfl

@[simp] theorem State.jumpTo_a (s : State) (n : Nat) : (s.jumpTo n).a = s.a := rfl
@[simp] theorem State.jumpTo_b (s : State) (n : Nat) : (s.jumpTo n).b = s.b := rfl
@[simp] theorem State.jumpTo_c (s : State) (n : Nat) : (s.jumpTo n).c = s.c := rfl
@[simp] theorem State.jumpTo_pc (s : State) (n : Nat) : (s.jumpTo n).pc = n := rfl
@[simp] theorem State.jumpTo_out (s : State) (n : Nat) : (s.jumpTo n).out = s.out := rfl
@[simp] theorem State.jumpTo_fault (s : State) (n : Nat) : (s.jumpTo n).fault = s.fault := rfl
@[simp] theorem State.jumpTo_prog (s : State) (n : Nat) : (s.jumpTo n).prog = s.prog := rfl
@[simp] theorem State.jumpTo_cfg (s : State) (n : Nat) : (s.jumpTo n).cfg = s.cfg := rfl

/-! Appending writes `out` only (R21). -/

@[simp] theorem State.outAppend_a (s : State) (v : OutElem) : (s.outAppend v).a = s.a := rfl
@[simp] theorem State.outAppend_b (s : State) (v : OutElem) : (s.outAppend v).b = s.b := rfl
@[simp] theorem State.outAppend_c (s : State) (v : OutElem) : (s.outAppend v).c = s.c := rfl
@[simp] theorem State.outAppend_pc (s : State) (v : OutElem) : (s.outAppend v).pc = s.pc := rfl
@[simp] theorem State.outAppend_out (s : State) (v : OutElem) : (s.outAppend v).out = s.out ++ [v] := rfl
@[simp] theorem State.outAppend_fault (s : State) (v : OutElem) : (s.outAppend v).fault = s.fault := rfl
@[simp] theorem State.outAppend_prog (s : State) (v : OutElem) : (s.outAppend v).prog = s.prog := rfl
@[simp] theorem State.outAppend_cfg (s : State) (v : OutElem) : (s.outAppend v).cfg = s.cfg := rfl

/-! Taking a decode error writes the latch only (R113). -/

@[simp] theorem State.latch_a (s : State) (k : Cause) (x : Cell) : (s.latch k x).a = s.a := rfl
@[simp] theorem State.latch_b (s : State) (k : Cause) (x : Cell) : (s.latch k x).b = s.b := rfl
@[simp] theorem State.latch_c (s : State) (k : Cause) (x : Cell) : (s.latch k x).c = s.c := rfl
@[simp] theorem State.latch_pc (s : State) (k : Cause) (x : Cell) : (s.latch k x).pc = s.pc := rfl
@[simp] theorem State.latch_out (s : State) (k : Cause) (x : Cell) : (s.latch k x).out = s.out := rfl
@[simp] theorem State.latch_fault (s : State) (k : Cause) (x : Cell) : (s.latch k x).fault = some ⟨k, s.pc, x⟩ := rfl
@[simp] theorem State.latch_prog (s : State) (k : Cause) (x : Cell) : (s.latch k x).prog = s.prog := rfl
@[simp] theorem State.latch_cfg (s : State) (k : Cause) (x : Cell) : (s.latch k x).cfg = s.cfg := rfl

/-! A new Machine (R24). -/

@[simp] theorem State.fresh_a (cfg : Config) (a b c : Nat) (p : Program) :
    (State.fresh cfg a b c p).a = a := rfl
@[simp] theorem State.fresh_b (cfg : Config) (a b c : Nat) (p : Program) :
    (State.fresh cfg a b c p).b = b := rfl
@[simp] theorem State.fresh_c (cfg : Config) (a b c : Nat) (p : Program) :
    (State.fresh cfg a b c p).c = c := rfl
@[simp] theorem State.fresh_pc (cfg : Config) (a b c : Nat) (p : Program) :
    (State.fresh cfg a b c p).pc = 0 := rfl
@[simp] theorem State.fresh_out (cfg : Config) (a b c : Nat) (p : Program) :
    (State.fresh cfg a b c p).out = [] := rfl
@[simp] theorem State.fresh_fault (cfg : Config) (a b c : Nat) (p : Program) :
    (State.fresh cfg a b c p).fault = none := rfl
@[simp] theorem State.fresh_prog (cfg : Config) (a b c : Nat) (p : Program) :
    (State.fresh cfg a b c p).prog = p := rfl
@[simp] theorem State.fresh_cfg (cfg : Config) (a b c : Nat) (p : Program) :
    (State.fresh cfg a b c p).cfg = cfg := rfl

/-! Reading a register (R10) and after a write (R12). -/

@[simp] theorem State.reg_A (s : State) : s.reg .A = s.a := rfl
@[simp] theorem State.reg_B (s : State) : s.reg .B = s.b := rfl
@[simp] theorem State.reg_C (s : State) : s.reg .C = s.c := rfl

/-- The three registers are distinct storage (R12). -/
theorem State.reg_setReg (s : State) (r q : Reg) (v : Nat) :
    (s.setReg r v).reg q = if q = r then v else s.reg q := by
  cases r <;> cases q <;> rfl

/-! What is computed from `prog` and `pc` alone. -/

theorem State.len_def (s : State) : s.len = s.prog.length := rfl

theorem State.memRead_def (s : State) (i : Nat) : s.memRead i = s.prog[i]? := rfl

theorem State.halted_iff (s : State) : s.halted = true ↔ s.len ≤ s.pc + 1 := by
  simp [State.halted]

theorem State.not_halted_iff (s : State) : s.halted = false ↔ s.pc + 1 < s.len := by
  simp [State.halted]

end Sys2Proof.Machine
end

