-- ==== Sys2Proof/Laws/Operands.lean ====
section
/-! SUPPORT. What the Operand Resolver can answer, and how it agrees with the decoder's range check
(R55 to R59). -/

namespace Sys2Proof.Machine

/-- The resolver in literal mode fails exactly as the decoder's check does (R56). -/
theorem lit_eq (o : Cell) :
    lit o = match operandCheck .literal o with
      | none => .ok o.toNat
      | some k => .error k := by
  unfold lit operandCheck
  split <;> rfl

/-- In combo mode the resolver fails exactly as the decoder's check does, whatever the registers hold
(R57). -/
theorem combo_error_iff (o : Cell) (s : State) (k : Cause) :
    combo o s = .error k ↔ operandCheck .combo o = some k := by
  simp only [combo, operandCheck]
  repeat' split
  all_goals first | (simp; done) | omega

/-- What a legal combo operand resolves to (R57). -/
theorem combo_ok_iff (o : Cell) (s : State) (v : Nat) :
    combo o s = .ok v ↔
      (o.toNat ≤ 3 ∧ o.toNat = v) ∨ (o.toNat = 4 ∧ s.a = v) ∨ (o.toNat = 5 ∧ s.b = v) ∨
        (o.toNat = 6 ∧ s.c = v) := by
  simp only [combo, State.reg]
  repeat' split
  all_goals simp_all
  all_goals omega

/-- An instruction with an operand either executes on the resolved value or takes the resolver's decode
error (R59, R73). -/
theorem withOperand_next (r : Except Cause Nat) (o : Cell) (s t : State)
    (effect : Nat → Host.Outcome State Fault Refusal) (h : withOperand r o s effect = .next t) :
    (∃ v, r = .ok v ∧ effect v = .next t) ∨ (∃ k, r = .error k ∧ t = s.latch k o) := by
  cases r with
  | ok v => exact .inl ⟨v, rfl, h⟩
  | error k =>
    simp only [withOperand, raise, Host.Outcome.next.injEq] at h
    exact .inr ⟨k, rfl, h.symm⟩

end Sys2Proof.Machine
end

