-- ==== Sys2Proof/Laws/Ops.lean ====
section
/-! SUPPORT. What each shared operation can do: fetch, the program store and its listing, placing a
pair. -/

namespace Sys2Proof.Machine

/-- There is nothing to fetch exactly in a halted state (R71, R72). -/
theorem fetch_eq_none_iff (s : State) : fetch s = none ↔ s.len ≤ s.pc + 1 := by
  unfold fetch State.memRead
  by_cases h : s.halted = true
  · simp [h, (s.halted_iff).1 h]
  · have hlt : s.pc + 1 < s.prog.length := (s.not_halted_iff).1 (by simpa using h)
    have h0 : s.pc < s.prog.length := by omega
    simp [h, h0, hlt, State.len]

/-- A fetch that succeeds read the two cells at `pc` and `pc + 1` (R72). -/
theorem fetch_eq_some_iff (s : State) (opc o : Cell) :
    fetch s = some (opc, o) ↔ s.memRead s.pc = some opc ∧ s.memRead (s.pc + 1) = some o := by
  unfold fetch
  by_cases h : s.halted = true
  · have hle : s.prog.length ≤ s.pc + 1 := (s.halted_iff).1 h
    simp [h, State.memRead, hle]
  · cases h0 : s.memRead s.pc <;> cases h1 : s.memRead (s.pc + 1) <;> simp [h]

/-- A cell exists exactly at the indices below `len` (R31). -/
theorem memRead_isSome_iff (s : State) (i : Nat) : (s.memRead i).isSome ↔ i < s.len := by
  simp [State.memRead, State.len]

/-- Reading the placed pair gives the placed cells. -/
theorem placePair_read (p : Program) (i : Nat) (opc o : Cell) :
    (placePair p i opc o)[i]? = some opc ∧ (placePair p i opc o)[i + 1]? = some o := by
  have hlen : (p.take i ++ List.replicate (i - p.length) (0 : Cell)).length = i := by
    simp; omega
  unfold placePair
  rw [List.append_assoc (_ ++ _)]
  constructor <;> rw [List.getElem?_append_right (by omega), hlen] <;> simp

/-- Placing a pair leaves every other cell of the program as it was. -/
theorem placePair_read_other (p : Program) (i j : Nat) (opc o : Cell) (h : j < p.length)
    (hj : j ≠ i) (hj' : j ≠ i + 1) : (placePair p i opc o)[j]? = p[j]? := by
  have hlen : (p.take i ++ List.replicate (i - p.length) (0 : Cell)).length = i := by
    simp; omega
  unfold placePair
  rw [List.append_assoc (_ ++ _)]
  by_cases hlt : j < i
  · rw [List.getElem?_append_left (by omega), List.getElem?_append_left (by simp; omega)]
    simp [hlt]
  · rw [List.getElem?_append_right (by omega), hlen,
      List.getElem?_append_right (by simp; omega), List.getElem?_drop]
    congr 1
    simp
    omega

/-- The listing of a program is in the canonical form. -/
theorem cellsFrom_wf (start : Nat) (p : Program) : Memory.wf (cellsFrom start p) = true := by
  induction p generalizing start with
  | nil => rfl
  | cons x rest ih =>
    cases rest with
    | nil => rfl
    | cons y rest' =>
      have h := ih (start + 1)
      simp only [cellsFrom, Memory.wf] at h ⊢
      simp [h]

/-- Equal listings are equal programs. -/
theorem cellsFrom_injective (start : Nat) (p q : Program) (h : cellsFrom start p = cellsFrom start q) :
    p = q := by
  induction p generalizing start q with
  | nil => cases q with
    | nil => rfl
    | cons y q' => simp [cellsFrom] at h
  | cons x p' ih => cases q with
    | nil => simp [cellsFrom] at h
    | cons y q' =>
      simp only [cellsFrom, List.cons.injEq, Prod.mk.injEq, true_and] at h
      rw [h.1, ih _ _ h.2]

/-- Every state's program space is in canonical form, the state after reset among them. -/
theorem State.cells_wf (s : State) : Memory.wf s.cells = true := cellsFrom_wf 0 s.prog

end Sys2Proof.Machine
end

