-- ==== Sys2Proof/Laws/Step.lean ====
section
/-! SUPPORT. What one instruction and one step can do, said once: every later proof about a next state
starts from these case lists (R11, R12, R16, R75, R113). -/

namespace Sys2Proof.Machine

/-- What a completed instruction other than a taken jump does: at most one register or the output is
written, and `pc` advances. -/
inductive Wrote (s : State) : State → Prop where
  | reg (r : Reg) (v : Nat) : Wrote s (s.setReg r v).advance
  | out (v : OutElem) : Wrote s (s.outAppend v).advance
  | nothing : Wrote s s.advance

theorem divideInto_next (r : Reg) (o : Cell) (s t : State) (h : divideInto r o s = .next t) :
    (∃ v, combo o s = .ok v ∧ t = (s.setReg r (s.a >>> v)).advance) ∨
      (∃ k, combo o s = .error k ∧ t = s.latch k o) := by
  rcases withOperand_next _ _ _ _ _ h with ⟨v, hv, he⟩ | hk
  · simp only [finish, shiftDiv, State.reg_A, Host.Outcome.next.injEq] at he
    exact .inl ⟨v, hv, he.symm⟩
  · exact .inr hk

theorem execBxl_next (o : Cell) (s t : State) (h : execBxl o s = .next t) :
    (o.toNat ≤ 7 ∧ t = (s.setReg .B (s.b ^^^ o.toNat)).advance) ∨
      (7 < o.toNat ∧ t = s.latch .operandOutOfRange o) := by
  rcases withOperand_next _ _ _ _ _ h with ⟨v, hv, he⟩ | ⟨k, hk, ht⟩
  · unfold lit at hv
    split at hv <;> simp at hv
    simp only [finish, bitXor, State.reg_B, Host.Outcome.next.injEq] at he
    subst hv
    exact .inl ⟨by assumption, he.symm⟩
  · unfold lit at hk
    split at hk <;> simp at hk
    subst hk
    exact .inr ⟨by omega, ht⟩

theorem execBst_next (o : Cell) (s t : State) (h : execBst o s = .next t) :
    (∃ v, combo o s = .ok v ∧ t = (s.setReg .B (v % 8)).advance) ∨
      (∃ k, combo o s = .error k ∧ t = s.latch k o) := by
  rcases withOperand_next _ _ _ _ _ h with ⟨v, hv, he⟩ | hk
  · simp only [finish, low3, Host.Outcome.next.injEq] at he
    exact .inl ⟨v, hv, he.symm⟩
  · exact .inr hk

theorem execBxc_next (o : Cell) (s t : State) (h : execBxc o s = .next t) :
    t = (s.setReg .B (s.b ^^^ s.c)).advance := by
  simp only [execBxc, finish, bitXor, State.reg_B, State.reg_C, Host.Outcome.next.injEq] at h
  exact h.symm

theorem execOut_next (o : Cell) (s t : State) (h : execOut o s = .next t) :
    (∃ v, combo o s = .ok v ∧ s.outRoom = true ∧
        t = (s.outAppend (BitVec.ofNat 3 (v % 8))).advance) ∨
      (∃ k, combo o s = .error k ∧ t = s.latch k o) := by
  rcases withOperand_next _ _ _ _ _ h with ⟨v, hv, he⟩ | hk
  · split at he <;> simp only [low3, Host.Outcome.next.injEq, reduceCtorEq] at he
    exact .inl ⟨v, hv, by assumption, he.symm⟩
  · exact .inr hk

theorem execJnz_next (o : Cell) (s t : State) (h : execJnz o s = .next t) :
    (o.toNat ≤ 7 ∧ s.a = 0 ∧ t = s.advance) ∨
      (o.toNat ≤ 7 ∧ s.a ≠ 0 ∧ s.targetMisaligned o.toNat = false ∧ t = s.jumpTo o.toNat) ∨
      (o.toNat ≤ 7 ∧ s.a ≠ 0 ∧ s.targetMisaligned o.toNat = true ∧
        t = s.latch .misalignedJumpTarget o) ∨
      (7 < o.toNat ∧ t = s.latch .operandOutOfRange o) := by
  rcases withOperand_next _ _ _ _ _ h with ⟨v, hv, he⟩ | ⟨k, hk, ht⟩
  · unfold lit at hv
    split at hv <;> simp at hv
    subst hv
    by_cases ha : s.a = 0
    · simp [State.jumpCondition, ha] at he
      exact .inl ⟨by assumption, ha, he.symm⟩
    · cases hm : s.targetMisaligned o.toNat <;> simp [State.jumpCondition, ha, hm, raise] at he
      · exact .inr (.inl ⟨by assumption, ha, rfl, he.symm⟩)
      · exact .inr (.inr (.inl ⟨by assumption, ha, rfl, he.symm⟩))
  · unfold lit at hk
    split at hk <;> simp at hk
    subst hk
    exact .inr (.inr (.inr ⟨by omega, ht⟩))

/-- The shape of every next state of an instruction: a write with an advance, a taken jump, or a decode
error taken (R12, R16, R75). -/
theorem exec_next_cases (i : Instr) (s t : State) (h : exec i s = .next t) :
    Wrote s t ∨ (∃ o, i = .jnz o ∧ o.toNat ≤ 7 ∧ s.a ≠ 0 ∧ t = s.jumpTo o.toNat) ∨
      (∃ k, t = s.latch k i.operand) := by
  cases i with
  | adv o =>
    rcases divideInto_next _ _ _ _ h with ⟨v, -, rfl⟩ | ⟨k, -, rfl⟩
    · exact .inl (.reg _ _)
    · exact .inr (.inr ⟨k, rfl⟩)
  | bxl o =>
    rcases execBxl_next _ _ _ h with ⟨-, rfl⟩ | ⟨-, rfl⟩
    · exact .inl (.reg _ _)
    · exact .inr (.inr ⟨_, rfl⟩)
  | bst o =>
    rcases execBst_next _ _ _ h with ⟨v, -, rfl⟩ | ⟨k, -, rfl⟩
    · exact .inl (.reg _ _)
    · exact .inr (.inr ⟨k, rfl⟩)
  | jnz o =>
    rcases execJnz_next _ _ _ h with ⟨-, -, rfl⟩ | ⟨ho, ha, -, rfl⟩ | ⟨-, -, -, rfl⟩ | ⟨-, rfl⟩
    · exact .inl .nothing
    · exact .inr (.inl ⟨o, rfl, ho, ha, rfl⟩)
    · exact .inr (.inr ⟨_, rfl⟩)
    · exact .inr (.inr ⟨_, rfl⟩)
  | bxc o =>
    rw [execBxc_next o _ _ h]
    exact .inl (.reg _ _)
  | out o =>
    rcases execOut_next _ _ _ h with ⟨v, -, -, rfl⟩ | ⟨k, -, rfl⟩
    · exact .inl (.out _)
    · exact .inr (.inr ⟨k, rfl⟩)
  | bdv o =>
    rcases divideInto_next _ _ _ _ h with ⟨v, -, rfl⟩ | ⟨k, -, rfl⟩
    · exact .inl (.reg _ _)
    · exact .inr (.inr ⟨k, rfl⟩)
  | cdv o =>
    rcases divideInto_next _ _ _ _ h with ⟨v, -, rfl⟩ | ⟨k, -, rfl⟩
    · exact .inl (.reg _ _)
    · exact .inr (.inr ⟨k, rfl⟩)

/-- What a step that answers a next state did: from an unfaulted state it fetched a pair, and either
took the decoder's rejection or executed the decoded instruction (R70, R72, R73, R74). -/
theorem step_next_cases (s t : State) (h : step s = .next t) :
    s.fault = none ∧ ∃ opc o, s.memRead s.pc = some opc ∧ s.memRead (s.pc + 1) = some o ∧
      ((∃ e, decode opc o = .error e ∧ t = s.latch e.cause e.value) ∨
        (∃ i, decode opc o = .ok i ∧ exec i s = .next t)) := by
  unfold step at h
  split at h
  · cases h
  · next hf =>
    refine ⟨hf, ?_⟩
    split at h
    · cases h
    · next opc o hfetch =>
      obtain ⟨h0, h1⟩ := (fetch_eq_some_iff s opc o).1 hfetch
      refine ⟨opc, o, h0, h1, ?_⟩
      split at h
      · next e he =>
        simp only [raise, Host.Outcome.next.injEq] at h
        exact .inl ⟨e, he, h.symm⟩
      · next i hi => exact .inr ⟨i, hi, h⟩

end Sys2Proof.Machine
end

