-- ==== Sys2Proof/Laws/Host.lean ====
section
/-! SUPPORT. What the host operations can answer (R135, R76), and what a run of the solver needs. -/

namespace Sys2Proof.Machine

/-- An instruction never ends in a stop of the step: those belong to halted and faulted states (R70). -/
theorem exec_ne_fault (i : Instr) (s : State) (r : Fault) : exec i s ≠ .fault r := by
  have wo : ∀ (x : Except Cause Nat) (o : Cell) (f : Nat → Host.Outcome State Fault Refusal),
      (∀ v, f v ≠ .fault r) → withOperand x o s f ≠ .fault r := by
    intro x o f hf
    cases x with
    | ok v => exact hf v
    | error k => simp [withOperand, raise]
  cases i with
  | bxc o => simp [exec, execBxc, finish]
  | jnz o =>
    refine wo _ _ _ fun v => ?_
    split
    · split <;> simp [raise]
    · simp
  | out o =>
    refine wo _ _ _ fun v => ?_
    split <;> simp
  | _ => exact wo _ _ _ fun v => by simp [finish]

theorem statusOf_eq_faulted_iff (s : State) (r : FaultRecord) :
    statusOf s = .faulted r ↔ s.fault = some r := by
  unfold statusOf
  cases s.fault with
  | none => cases s.halted <;> simp
  | some x => simp

theorem statusOf_eq_halted_iff (s : State) :
    statusOf s = .halted ↔ s.fault = none ∧ s.len ≤ s.pc + 1 := by
  unfold statusOf
  cases hf : s.fault with
  | some x => simp
  | none => rw [← s.halted_iff]; cases s.halted <;> simp

theorem statusOf_eq_running_iff (s : State) :
    statusOf s = .running ↔ s.fault = none ∧ s.pc + 1 < s.len := by
  unfold statusOf
  cases hf : s.fault with
  | some x => simp
  | none => rw [← s.not_halted_iff]; cases s.halted <;> simp

/-- A construction that is accepted gives the state of R24. -/
theorem construct_ok (cfg : Config) (a b c : Nat) (p : Program) (s : State)
    (h : construct cfg a b c p = .ok s) : s = State.fresh cfg a b c p := by
  unfold construct at h
  split at h
  · cases h
    rfl
  · split at h
    · cases h
    · split at h <;> cases h
      rfl

/-- A trial that has an output is a run of a fresh Machine that halted (R146). -/
theorem trialRun_eq_ok_iff (cfg : Config) (fuel candidate : Nat) (p : Program) (o : List OutElem) :
    trialRun cfg fuel candidate p = .ok o ↔
      ∃ s, construct cfg candidate 0 0 p = .ok s ∧ runFor fuel s = .ok o := by
  unfold trialRun
  cases construct cfg candidate 0 0 p with
  | error r => simp
  | ok s => cases hr : runFor fuel s <;> simp [hr]

end Sys2Proof.Machine
end

