-- ==== Sys2Proof/Laws/PerInstr.lean ====
section
/-! SUPPORT. Per instruction: the decoder's range check of the operand accepts exactly the well-formed
instructions (R51, R56, R57, R58). -/

namespace Sys2Proof.Laws.OperandCheck

/-- The decoder's check of an instruction's operand passes exactly when the instruction is well
formed. -/
def Statement (i : Instr) : Prop := operandCheck i.mode i.operand = none ↔ i.wellFormed = true

theorem adv (o : Cell) : Statement (.adv o) := operandCheck_eq_none_iff .combo o

theorem bxl (o : Cell) : Statement (.bxl o) := operandCheck_eq_none_iff .literal o

theorem bst (o : Cell) : Statement (.bst o) := operandCheck_eq_none_iff .combo o

theorem jnz (o : Cell) : Statement (.jnz o) := operandCheck_eq_none_iff .literal o

theorem bxc (o : Cell) : Statement (.bxc o) := operandCheck_eq_none_iff .ignored o

theorem out (o : Cell) : Statement (.out o) := operandCheck_eq_none_iff .combo o

theorem bdv (o : Cell) : Statement (.bdv o) := operandCheck_eq_none_iff .combo o

theorem cdv (o : Cell) : Statement (.cdv o) := operandCheck_eq_none_iff .combo o

end Sys2Proof.Laws.OperandCheck
end

