-- ==== Sys2Proof/Laws/Safety.lean ====
section
/-! SUPPORT. Reading a checked program, invariants along several steps, and a level of the search. -/

namespace Sys2Proof.Safety

open Sys2Proof.Machine

/-- A check of all pairs holds of the pair at an even index (R133, R80). -/
theorem allPairs_read (check : Cell → Cell → Bool) :
    ∀ (p : Program) (k : Nat) (x y : Cell), allPairs check p = true →
      p[2 * k]? = some x → p[2 * k + 1]? = some y → check x y = true
  | [], _, _, _, _, hx, _ => by simp at hx
  | [_], _, _, _, _, _, hy => by simp at hy
  | _ :: _ :: _, 0, x, y, h, hx, hy => by
    simp only [allPairs, Bool.and_eq_true] at h
    simp at hx hy
    subst hx hy
    exact h.1
  | _ :: _ :: rest, k + 1, x, y, h, hx, hy => by
    simp only [allPairs, Bool.and_eq_true] at h
    exact allPairs_read check rest k x y h.2 (by simpa [Nat.mul_add] using hx)
      (by simpa [Nat.mul_add] using hy)

/-- What every step keeps, any number of steps keep. -/
theorem stepsN_keeps (P : State → Prop) (hstep : ∀ s t, P s → step s = .next t → P t) :
    ∀ (n : Nat) (s t : State), P s → stepsN n s = some t → P t
  | 0, s, t, h, e => by
    simp only [stepsN, Option.some.injEq] at e
    exact e ▸ h
  | n + 1, s, t, h, e => by
    simp only [stepsN] at e
    split at e
    · next u hu => exact stepsN_keeps P hstep n u t (hstep _ _ h hu) e
    · cases e

/-- A level of the search tries its candidates' answers in the order of the digits (R147). -/
theorem search_eq_tryDigits (cfg : Config) (fuel : Nat) (p : Program) (index current : Nat) :
    search cfg fuel p index current =
      tryDigits (candidateAnswer cfg fuel p index) current octalDigits := by
  cases index <;> rfl

end Sys2Proof.Safety
end

