-- ==== Sys2Proof/Laws/Word.lean ====
section
/-! SUPPORT. The length of a number in bits, as a bound by a power of two (R14). -/

namespace Sys2Proof

/-- A number is at most `m` bits long exactly when it is below `2^m`. -/
theorem bitLen_le_iff (v m : Nat) : bitLen v ≤ m ↔ v < 2 ^ m := by
  unfold bitLen
  split
  · subst v
    simp
  · rw [Nat.succ_le_iff, Nat.log2_lt (by assumption)]

end Sys2Proof
end

