-- ==== Sys2Proof/Tests/Slice0.lean ====
section
/-! SUPPORT. Tests. Every expected result is a vector of spec/95_test_vectors.md (the section is named)
or is computed by hand from the rule named. `witness_<Statement>` shows, clause by clause, a state and
operands that meet the hypotheses of the obligation of that name, at the edges of their ranges. -/

namespace Sys2Proof.Tests

open Sys2Proof.Machine Sys2Proof.Safety

/-- A new Machine with the given registers and program, under the spec's default parameters. -/
def machine (a b c : Nat) (p : List Nat) : State :=
  State.fresh { } a b c (p.map (BitVec.ofNat 8))

/-- The same under `STRICT_JUMP_ALIGN = true`. -/
def strict (a b c : Nat) (p : List Nat) : State :=
  State.fresh { strictJumpAlign := true } a b c (p.map (BitVec.ofNat 8))

/-- What the spec's vectors show of a state: `(A, B, C, pc, out)` and the latch `(cause, fpc, value)`. -/
structure View where
  a : Nat
  b : Nat
  c : Nat
  pc : Nat
  out : List Nat
  latch : Option (Nat × Nat × Nat)
  deriving DecidableEq

def view (s : State) : View where
  a := s.a
  b := s.b
  c := s.c
  pc := s.pc
  out := s.out.map BitVec.toNat
  latch := s.fault.map fun r => (causeCode r.cause, r.fpc, r.value.toNat)

/-- The view after one step, where it answers a next state. -/
def after (s : State) : Option View :=
  match step s with
  | .next t => some (view t)
  | _ => none

/-- Why a step answers no next state. -/
def stopOf (s : State) : Option Fault :=
  match step s with
  | .fault r => some r
  | _ => none

/-! ### Well-formedness: an ill-formed term for each check (R60) -/

theorem test_wellFormed_refuses_combo_seven : (Instr.adv 7).wellFormed = false := by decide
theorem test_wellFormed_refuses_combo_above_seven : (Instr.out 255).wellFormed = false := by decide
theorem test_wellFormed_refuses_literal_eight : (Instr.jnz 8).wellFormed = false := by decide
theorem test_wellFormed_ignores_bxc_operand : (Instr.bxc 255).wellFormed = true := by decide

/-! ### Decoding: words written out from the opcode map (R52, R61): opcode cell, then operand cell -/

theorem test_decode_adv : decodeTableWord 16 0b00000000_00000110 = some (.adv 6) := by decide
theorem test_decode_bxl : decodeTableWord 16 0b00000001_00000111 = some (.bxl 7) := by decide
theorem test_decode_bst : decodeTableWord 16 0b00000010_00000100 = some (.bst 4) := by decide
theorem test_decode_jnz : decodeTableWord 16 0b00000011_00000000 = some (.jnz 0) := by decide
theorem test_decode_bxc : decodeTableWord 16 0b00000100_11001000 = some (.bxc 200) := by decide
theorem test_decode_out : decodeTableWord 16 0b00000101_00000101 = some (.out 5) := by decide
theorem test_decode_bdv : decodeTableWord 16 0b00000110_00000011 = some (.bdv 3) := by decide
theorem test_decode_cdv : decodeTableWord 16 0b00000111_00000001 = some (.cdv 1) := by decide
theorem test_decode_refuses_combo_seven : decodeTableWord 16 0b00000110_00000111 = none := by decide
theorem test_decode_refuses_operand_eight : decodeTableWord 16 0b00000011_00001000 = none := by decide
theorem test_decode_refuses_opcode_eight : decodeTableWord 16 0b00001000_00000000 = none := by decide

/-! ### One step of each instruction -/

/-- Section 2.2: the shift amount of `adv 4` is the old A. -/
theorem test_adv_by_itself : after (machine 13 0 0 [0, 4]) = some ⟨0, 0, 0, 2, [], none⟩ := by decide
/-- Section 2.2: `1024 div 2^10`. -/
theorem test_adv_by_C : after (machine 1024 0 10 [0, 6]) = some ⟨1, 0, 10, 2, [], none⟩ := by decide
/-- Section 2.2: a shift by 64 is not special. -/
theorem test_bdv_by_sixty_four :
    after (machine (2 ^ 70 + 5) 64 0 [6, 5]) = some ⟨2 ^ 70 + 5, 64, 0, 2, [], none⟩ := by decide
/-- Section 2.2: the old B is the shift. -/
theorem test_bdv_by_B : after (machine 44 2 0 [6, 5]) = some ⟨44, 11, 0, 2, [], none⟩ := by decide
/-- Section 2.2: the old C is the shift. -/
theorem test_cdv_by_C : after (machine 1000 3 2 [7, 6]) = some ⟨1000, 3, 250, 2, [], none⟩ := by decide
/-- Section 2.2: operand above 7, cause 3. -/
theorem test_cdv_operand_eight :
    after (machine 5 0 0 [7, 8]) = some ⟨5, 0, 0, 0, [], some (3, 0, 8)⟩ := by decide
/-- Section 2.3: bits above 2 are kept. -/
theorem test_bxl_keeps_high_bits :
    after (machine 0 1000 0 [1, 5]) = some ⟨0, 1005, 0, 2, [], none⟩ := by decide
/-- Section 2.3: the literal 4, not register A. -/
theorem test_bxl_literal_four : after (machine 9 0 0 [1, 4]) = some ⟨9, 4, 0, 2, [], none⟩ := by decide
/-- Section 2.3: B masked in place. -/
theorem test_bst_by_B : after (machine 0 29 0 [2, 5]) = some ⟨0, 5, 0, 2, [], none⟩ := by decide
/-- Section 2.3: combo 7, cause 2. -/
theorem test_bst_operand_seven :
    after (machine 0 0 0 [2, 7]) = some ⟨0, 0, 0, 0, [], some (2, 0, 7)⟩ := by decide
/-- Section 2.3. -/
theorem test_bxc_xors :
    after (machine 0 2024 43690 [4, 0]) = some ⟨0, 44354, 43690, 2, [], none⟩ := by decide
/-- Section 2.3: the operand above 7 is ignored. -/
theorem test_bxc_operand_ignored :
    after (machine 0 5 3 [4, 200]) = some ⟨0, 6, 3, 2, [], none⟩ := by decide
/-- Section 2.4: the test is on all of A, not on its low three bits. -/
theorem test_jnz_taken_on_eight :
    after (machine 8 0 0 [3, 4, 5, 1, 5, 2]) = some ⟨8, 0, 0, 4, [], none⟩ := by decide
/-- Section 2.4: the operand is checked though the jump is not taken. -/
theorem test_jnz_operand_nine_not_taken :
    after (machine 0 0 0 [3, 9]) = some ⟨0, 0, 0, 0, [], some (3, 0, 9)⟩ := by decide
/-- Section 2.5: only the low three bits are emitted, the register stays. -/
theorem test_out_low_three_bits :
    after (machine 364 0 0 [5, 4]) = some ⟨364, 0, 0, 2, [4], none⟩ := by decide
/-- Section 2.5: a 7 can be emitted. -/
theorem test_out_emits_seven :
    after (machine 0 0 15 [5, 6]) = some ⟨0, 0, 15, 2, [7], none⟩ := by decide

/-! ### The step and the host operations -/

/-- Section 1.4: cause 1, the operand cell is not examined. -/
theorem test_step_illegal_opcode :
    after (machine 6 0 0 [9, 7]) = some ⟨6, 0, 0, 0, [], some (1, 0, 9)⟩ := by decide
/-- Section 1.4: a lone opcode cell is no decodable position. -/
theorem test_step_halts_before_lone_cell : stopOf (machine 0 0 0 [9]) = some .halted := by decide
/-- Section 2.4: a taken jump to an odd index, default setting. -/
theorem test_step_odd_jump_default :
    after (machine 1 6 9 [3, 1, 5, 4, 0, 3]) = some ⟨1, 6, 9, 1, [], none⟩ := by decide
/-- Section 2.4: the pair at the odd index 1 is (1, 5), which is `bxl 5`. -/
theorem test_step_misaligned_pair :
    after { machine 1 6 9 [3, 1, 5, 4, 0, 3] with pc := 1 } = some ⟨1, 3, 9, 3, [], none⟩ := by decide
/-- Section 2.4: the same jump under `STRICT_JUMP_ALIGN`. -/
theorem test_step_odd_jump_strict :
    after (strict 1 6 9 [3, 1, 5, 4, 0, 3]) = some ⟨1, 6, 9, 0, [], some (4, 0, 1)⟩ := by decide
/-- Section 2.6: halted at construction, and `Run` answers the empty output. -/
theorem test_run_of_empty_program : runFor 0 (machine 1 2 3 []) = .ok [] := by decide
/-- Section 3.4, first step: the output of a state that still runs is no result (R136). -/
theorem test_output_not_valid_while_running : outputOf (machine 13 0 0 [5, 4]) = none := by decide
/-- Row U7: 8 does not fit three bits. -/
theorem test_construct_refuses_wide_register :
    (match construct { xlen := some 3 } 8 0 0 [] with
      | .ok _ => none
      | .error r => some r) = some ConstructRefusal.registerTooWide := by decide
/-- Section 4: the trial with candidate 24 on `[0,3,5,4]` emits `24 div 8 = 3`, which is not the 4 at
index 3. -/
theorem test_visit_discards_mismatch :
    visit { } 2 ([0, 3, 5, 4, 3, 0].map (BitVec.ofNat 8)) 3 .found 24 = .notFound := by decide
/-- Section 4: the last level of Scenario 2 accepts the first digit's trial, `14680 mod 8 = 0`. -/
theorem test_visit_accepts_match :
    visit { } 2 ([0, 3, 5, 4, 3, 0].map (BitVec.ofNat 8)) 0 .found 117440 = .found 117440 := by decide
/-- R152: no final pair to remove. -/
theorem test_solver_not_defined_on_one_cell : solve { } 10 [5] = .notDefined := by decide

/-! ### Witnesses: every hypothesis of every obligation can be met -/

/-- Registers told apart, no fault, an instruction at `pc`. -/
def sample : State := machine 5 6 9 [0, 3, 5, 4, 3, 0]

/-- The same with a finite output capacity and one element emitted. -/
def capped (cap : Nat) : State := { sample with cfg := { outCap := some cap }, out := [7] }

theorem witness_DecodeOfEncodeIsIdentity :
    (Instr.adv 6).wellFormed = true ∧ (Instr.bxl 7).wellFormed = true ∧
    (Instr.bxc 255).wellFormed = true := by decide

theorem witness_EncodeOfDecodeIsIdentity :
    decode 7 6 = .ok (.cdv 6) ∧ decode 3 7 = .ok (.jnz 7) ∧ decode 4 255 = .ok (.bxc 255) :=
  ⟨rfl, rfl, rfl⟩

theorem witness_PairsAreClassified :
    7 < (8 : Cell).toNat ∧ 7 < (255 : Cell).toNat ∧
    ((7 : Cell).toNat ∈ [0, 2, 5, 6, 7] ∧ (6 : Cell).toNat ≤ 6 ∧ (7 : Cell).toNat = 7 ∧
      7 < (8 : Cell).toNat) ∧
    ((3 : Cell).toNat ∈ [1, 3] ∧ (7 : Cell).toNat ≤ 7 ∧ 7 < (8 : Cell).toNat) ∧
    (4 : Cell).toNat = 4 := by decide

theorem witness_PlacedWordRunsNext : decodeTableWord 16 0x0706 = some (.cdv 6) := by decide

theorem witness_LiteralOperandResolution : (7 : Cell).toNat ≤ 7 ∧ 7 < (8 : Cell).toNat := by decide

theorem witness_ComboOperandResolution :
    (3 : Cell).toNat ≤ 3 ∧ (4 : Cell).toNat = 4 ∧ (5 : Cell).toNat = 5 ∧ (6 : Cell).toNat = 6 ∧
    (7 : Cell).toNat = 7 ∧ 7 < (8 : Cell).toNat := by decide

/-- The operand hypotheses shared by the five combo instructions: every row of the resolver's table,
the corner cases, the two exceptions and the top of the legal range. -/
theorem witness_combo_clauses :
    ComboValue 0 sample 0 ∧ ComboValue 3 sample 3 ∧ ComboValue 4 sample 5 ∧ ComboValue 5 sample 6 ∧
    ComboValue 6 sample 9 ∧ (0 : Cell).toNat = 0 ∧ (4 : Cell).toNat = 4 ∧ (7 : Cell).toNat = 7 ∧
    7 < (8 : Cell).toNat ∧ (6 : Cell).toNat ≤ 6 := by decide

theorem witness_AdvDividesAIntoA :
    ComboValue 6 sample 9 ∧
    exec (.adv 6) sample = .next { sample with a := sample.a / 2 ^ 9, pc := 2 } :=
  ⟨by decide, rfl⟩

theorem witness_BdvDividesAIntoB :
    ComboValue 3 sample 3 ∧
    exec (.bdv 3) sample = .next { sample with b := sample.a / 2 ^ 3, pc := 2 } :=
  ⟨by decide, rfl⟩

theorem witness_CdvDividesAIntoC :
    ComboValue 5 sample 6 ∧
    exec (.cdv 5) sample = .next { sample with c := sample.a / 2 ^ 6, pc := 2 } :=
  ⟨by decide, rfl⟩

theorem witness_BxlXorsLiteralIntoB :
    (7 : Cell).toNat ≤ 7 ∧ (0 : Cell).toNat = 0 ∧ 7 < (8 : Cell).toNat := by decide

theorem witness_BstMasksOperandIntoB :
    ComboValue 6 sample 9 ∧ (3 : Cell).toNat ≤ 3 ∧
    exec (.bst 6) sample = .next { sample with b := 1, pc := 2 } :=
  ⟨by decide, by decide, rfl⟩

theorem witness_BxcXorsCIntoB :
    (machine 0 5 0 [4, 0]).c = 0 ∧ (machine 0 5 5 [4, 0]).b = (machine 0 5 5 [4, 0]).c := by decide

theorem witness_JnzJumpsWhenANonzero :
    ((7 : Cell).toNat ≤ 7 ∧ (machine 0 0 0 [3, 7]).a = 0) ∧
    ((7 : Cell).toNat ≤ 7 ∧ sample.a ≠ 0 ∧
      ¬(sample.cfg.strictJumpAlign = true ∧ (7 : Cell).toNat % 2 = 1)) ∧
    ((6 : Cell).toNat ≤ 7 ∧ (strict 1 0 0 []).a ≠ 0 ∧
      ¬((strict 1 0 0 []).cfg.strictJumpAlign = true ∧ (6 : Cell).toNat % 2 = 1)) ∧
    ((1 : Cell).toNat ≤ 7 ∧ (strict 1 0 0 []).a ≠ 0 ∧
      (strict 1 0 0 []).cfg.strictJumpAlign = true ∧ (1 : Cell).toNat % 2 = 1) ∧
    7 < (8 : Cell).toNat := by decide

theorem witness_OutAppendsLowThreeBits :
    sample.cfg.outCap = none ∧ ComboValue 6 sample 9 ∧ (3 : Cell).toNat ≤ 3 ∧
    exec (.out 6) sample = .next { sample with out := [1], pc := 2 } :=
  ⟨rfl, by decide, by decide, rfl⟩

theorem witness_OutWithFiniteCapacity :
    ((capped 2).cfg.outCap = some 2 ∧ ComboValue 4 (capped 2) 5 ∧ (capped 2).out.length < 2) ∧
    ((capped 1).cfg.outCap = some 1 ∧ ComboValue 4 (capped 1) 5 ∧ 1 ≤ (capped 1).out.length) := by
  decide

theorem witness_DivideFrame :
    (∃ t, exec (.adv 6) sample = .next t) ∧ (∃ t, exec (.bdv 6) sample = .next t) ∧
    (∃ t, exec (.cdv 6) sample = .next t) ∧ (∃ t, exec (.cdv 7) sample = .next t) ∧
    (6 : Cell).toNat ≤ 6 ∧ 7 ≤ (7 : Cell).toNat :=
  ⟨⟨_, rfl⟩, ⟨_, rfl⟩, ⟨_, rfl⟩, ⟨_, rfl⟩, by decide, by decide⟩

theorem witness_BitwiseFrame :
    (∃ t, exec (.bxl 7) sample = .next t) ∧ (∃ t, exec (.bxl 8) sample = .next t) ∧
    (∃ t, exec (.bst 6) sample = .next t) ∧ (∃ t, exec (.bst 7) sample = .next t) ∧
    (∃ t, exec (.bxc 255) sample = .next t) ∧ (Instr.bst 6).wellFormed = true ∧
    (Instr.bst 7).wellFormed = false :=
  ⟨⟨_, rfl⟩, ⟨_, rfl⟩, ⟨_, rfl⟩, ⟨_, rfl⟩, ⟨_, rfl⟩, by decide, by decide⟩

theorem witness_JumpFrame :
    (∃ t, exec (.jnz 7) sample = .next t) ∧ (∃ t, exec (.jnz 8) sample = .next t) ∧
    (∃ t, exec (.jnz 1) (strict 1 0 0 []) = .next t) :=
  ⟨⟨_, rfl⟩, ⟨_, rfl⟩, ⟨_, rfl⟩⟩

theorem witness_OutputFrame :
    (∃ t, exec (.out 6) sample = .next t) ∧ (∃ t, exec (.out 7) sample = .next t) ∧
    (6 : Cell).toNat ≤ 6 ∧ 7 ≤ (7 : Cell).toNat :=
  ⟨⟨_, rfl⟩, ⟨_, rfl⟩, by decide, by decide⟩

theorem witness_StepRunsDecodedInstruction :
    sample.fault = none ∧ sample.memRead sample.pc = some 0 ∧
    sample.memRead (sample.pc + 1) = some 3 ∧ decode 0 3 = .ok (.adv 3) :=
  ⟨rfl, rfl, rfl, rfl⟩

theorem witness_StepTakesDecodeError :
    (machine 5 0 0 [0, 7]).fault = none ∧ (machine 5 0 0 [0, 7]).memRead 0 = some 0 ∧
    (machine 5 0 0 [0, 7]).memRead 1 = some 7 ∧
    decode 0 7 = .error ⟨.reservedComboOperand, 7⟩ :=
  ⟨rfl, rfl, rfl, rfl⟩

theorem witness_IllegalOpcodeFaultsWhereDecoded :
    ((machine 6 0 0 [8, 7]).fault = none ∧ (machine 6 0 0 [8, 7]).memRead 0 = some 8 ∧
      7 < (8 : Cell).toNat ∧ 0 + 1 < (machine 6 0 0 [8, 7]).len) ∧
    ((machine 0 0 0 [9]).fault = none ∧ (machine 0 0 0 [9]).memRead 0 = some 9 ∧
      7 < (9 : Cell).toNat ∧ 0 + 1 = (machine 0 0 0 [9]).len) := by decide

theorem witness_StepExistsUnlessStopped :
    (sample.latch .illegalOpcode 9).fault = some ⟨.illegalOpcode, 0, 9⟩ ∧
    ((machine 0 0 0 [5]).fault = none ∧ (machine 0 0 0 [5]).len ≤ (machine 0 0 0 [5]).pc + 1) ∧
    (sample.fault = none ∧ sample.pc + 1 < sample.len ∧ sample.cfg.outCap = none) := by decide

theorem witness_HaltCondition :
    ((machine 0 0 0 [5]).fault = none ∧ (machine 0 0 0 [5]).pc + 1 ≥ (machine 0 0 0 [5]).len) ∧
    ((machine 0 0 0 [5, 4]).fault = none ∧
      (machine 0 0 0 [5, 4]).pc + 1 < (machine 0 0 0 [5, 4]).len) := by decide

theorem witness_PcAfterStep :
    (∃ t, step sample = .next t ∧ t.fault = none) ∧
    (∃ t, step (machine 8 0 0 [3, 4, 5, 1, 5, 2]) = .next t ∧ t.fault = none ∧ t.pc = 4) ∧
    (∃ t, step (machine 5 0 0 [0, 7]) = .next t ∧ t.fault ≠ none) ∧
    sample.memRead sample.pc = some 0 ∧ sample.memRead (sample.pc + 1) = some 3 :=
  ⟨⟨_, rfl, rfl⟩, ⟨_, rfl, rfl, rfl⟩, ⟨_, rfl, by decide⟩, rfl, rfl⟩

theorem witness_StepWritesOneDestination :
    (∃ t, step sample = .next t) ∧ (∃ t, step (machine 5 0 0 [0, 7]) = .next t) :=
  ⟨⟨_, rfl⟩, ⟨_, rfl⟩⟩

theorem witness_WritersOfEachRegister :
    (∃ t, step sample = .next t ∧ t.a ≠ sample.a ∧ sample.memRead sample.pc = some 0) ∧
    (∃ t, step (machine 5 6 9 [4, 0]) = .next t ∧ t.b ≠ 6) ∧
    (∃ t, step (machine 5 6 9 [7, 0]) = .next t ∧ t.c ≠ 9) ∧
    (∃ t, step (machine 5 6 9 [5, 0]) = .next t ∧ t.out ≠ []) :=
  ⟨⟨_, rfl, by decide, rfl⟩, ⟨_, rfl, by decide⟩, ⟨_, rfl, by decide⟩, ⟨_, rfl, by decide⟩⟩

theorem witness_StepReadsOnlyFetchedPair :
    (∃ t, step sample = .next t) ∧ [0, 3, 9, 9, 9, 9].length = sample.prog.length ∧
    ([0, 3, 9, 9, 9, 9] : Program)[sample.pc]? = sample.prog[sample.pc]? ∧
    ([0, 3, 9, 9, 9, 9] : Program)[sample.pc + 1]? = sample.prog[sample.pc + 1]? :=
  ⟨⟨_, rfl⟩, rfl, rfl, rfl⟩

theorem witness_OutputIsNeverRead :
    sample.cfg.outCap = none ∧ (∃ t, step sample = .next t) ∧
    (∃ t, step (machine 5 6 9 [5, 4]) = .next t) :=
  ⟨rfl, ⟨_, rfl⟩, ⟨_, rfl⟩⟩

theorem witness_LatchTellsTheTruth :
    (∃ t, step (machine 6 0 0 [9, 7]) = .next t ∧ t.fault ≠ none) ∧
    (∃ t, step (strict 1 6 9 [3, 1, 5, 4]) = .next t ∧ t.fault ≠ none) :=
  ⟨⟨_, rfl, by decide⟩, ⟨_, rfl, by decide⟩⟩

theorem witness_StepKeepsRegistersBelow :
    3 ≤ 3 ∧ RegsBelow 3 (machine 7 7 7 [4, 0]) ∧ (∃ t, step (machine 7 7 7 [4, 0]) = .next t) :=
  ⟨by decide, by decide, ⟨_, rfl⟩⟩

theorem witness_RunNeverLengthensRegisters :
    ∃ t, stepsN 2 (State.fresh { } 5 6 9 [0, 3, 5, 4]) = some t :=
  ⟨_, rfl⟩

theorem witness_StepKeepsPcBounded :
    PcBounded (machine 1 0 0 [3, 7]) ∧ (∃ t, step (machine 1 0 0 [3, 7]) = .next t ∧ t.pc = 7) :=
  ⟨by decide, ⟨_, rfl, rfl⟩⟩

theorem witness_StrictAlignmentKeepsPcEven :
    (strict 1 6 9 [3, 6]).cfg.strictJumpAlign = true ∧ (strict 1 6 9 [3, 6]).pc % 2 = 0 ∧
    (∃ t, step (strict 1 6 9 [3, 6]) = .next t) :=
  ⟨rfl, rfl, ⟨_, rfl⟩⟩

theorem witness_WellFormedProgramNeverFaults : SafeRun sample ∧ (∃ t, step sample = .next t) :=
  ⟨by decide, ⟨_, rfl⟩⟩

theorem witness_WellFormedProgramProgresses :
    SafeRun sample ∧ sample.pc + 1 < sample.len ∧ sample.cfg.outCap = none := by decide

theorem witness_RunKeepsProgramAndExtendsOutput : ∃ t, stepsN 2 sample = some t ∧ t.out ≠ [] :=
  ⟨_, rfl, by decide⟩

theorem witness_JumpFreeRunEnds :
    jumpFree [0, 3, 5, 4] = true ∧ ∃ t, stepsN 2 (State.fresh { } 5 6 9 [0, 3, 5, 4]) = some t :=
  ⟨by decide, ⟨_, rfl⟩⟩

theorem witness_RunAnswersWhereItStops :
    runFor 1 (machine 5 0 0 [5, 4]) = .ok [5] ∧
    runFor 1 (machine 5 0 0 [0, 7]) = .fatal ⟨.reservedComboOperand, 0, 7⟩ := by decide

theorem witness_FaultedMachineStaysFaulted :
    (sample.latch .illegalOpcode 9).fault = some ⟨.illegalOpcode, 0, 9⟩ := by decide

theorem witness_ShiftDivLaws : bitLen 7 ≤ 3 := by decide

theorem witness_ConstructGivesResetState :
    ({ } : Config).xlen = none ∧
    (({ xlen := some 3 } : Config).xlen = some 3 ∧ 3 ≤ 3 ∧ 7 < 2 ^ 3 ∧ 0 < 2 ^ 3 ∧ 7 < 2 ^ 3) := by
  decide

theorem witness_ConstructRefusesMisfits :
    (({ xlen := some 2 } : Config).xlen = some 2 ∧ 2 < 3) ∧
    (({ xlen := some 3 } : Config).xlen = some 3 ∧ 3 ≤ 3 ∧ 2 ^ 3 ≤ 8) := by decide

theorem witness_ConstructionMeetsInvariants : programWellFormed [0, 6, 3, 6, 4, 7] = true := by decide

/-- Scenario 2 (section 4): the search for `[0,3,5,4,3,0]` answers 117440. The one evaluation here of more
than a few steps: the statement is about a whole search, and this is the spec's own example of one. -/
theorem witness_SolverAnswersAreQuines :
    solve { } 18 ([0, 3, 5, 4, 3, 0].map (BitVec.ofNat 8)) = .found 117440 := by decide

/-- A running state, a halted one, a faulted one, a refused step, and an output to answer. -/
theorem witness_HostStepAndOutputInEveryState :
    (∃ t, step sample = .next t) ∧
    step { capped 1 with prog := [5, 4] } = .refused .outputCapacityExceeded ∧
    (sample.latch .illegalOpcode 9).fault ≠ none ∧
    ((machine 0 0 0 [5]).fault = none ∧ (machine 0 0 0 [5]).len ≤ (machine 0 0 0 [5]).pc + 1) ∧
    ((machine 0 0 0 [5, 4]).fault = none ∧
      (machine 0 0 0 [5, 4]).pc + 1 < (machine 0 0 0 [5, 4]).len) ∧
    outputOf (machine 0 0 0 [5]) = some [] :=
  ⟨⟨_, rfl⟩, rfl, by decide, by decide, by decide, by decide⟩

/-- A program whose truncated form is the pair given. -/
def withPair (opc o : Cell) : Program := [opc, o, 3, 0]

/-- Refused constructions; a trial that faults, does not end, is refused, matches and does not match; the
same of a validation (an accepted one is `witness_SolverAnswersAreQuines`'s last step). -/
theorem witness_CandidateAnswersFollowItsRuns :
    construct { xlen := some 3 } 8 0 0 ((withPair 5 4).take 2) = .error .registerTooWide ∧
    construct { xlen := some 3 } 8 0 0 (withPair 5 4) = .error .registerTooWide ∧
    (∃ s, construct { } 5 0 0 ((withPair 0 7).take 2) = .ok s ∧
      runFor 9 s = .fatal ⟨.reservedComboOperand, 0, 7⟩) ∧
    (∃ s u, construct { } 5 0 0 ((withPair 5 4).take 2) = .ok s ∧ runFor 0 s = .unfinished u) ∧
    (∃ s, construct { outCap := some 0 } 5 0 0 ((withPair 5 4).take 2) = .ok s ∧
      runFor 9 s = .refused .outputCapacityExceeded) ∧
    (∃ s, construct { } 5 0 0 ((withPair 5 4).take 2) = .ok s ∧ runFor 9 s = .ok [5] ∧
      (∃ e x, [(5 : OutElem)].head? = some e ∧ (withPair 5 4)[0]? = some x ∧ e.toNat = x.toNat)) ∧
    (∃ s, construct { } 6 0 0 ((withPair 5 4).take 2) = .ok s ∧ runFor 9 s = .ok [6] ∧
      ¬(∃ e x, [(6 : OutElem)].head? = some e ∧ (withPair 5 4)[0]? = some x ∧ e.toNat = x.toNat)) ∧
    (∃ s, construct { } 5 0 0 (withPair 0 7) = .ok s ∧
      runFor 9 s = .fatal ⟨.reservedComboOperand, 0, 7⟩) ∧
    (∃ s u, construct { } 5 0 0 (withPair 5 4) = .ok s ∧ runFor 2 s = .unfinished u) ∧
    (∃ s, construct { outCap := some 0 } 5 0 0 (withPair 5 4) = .ok s ∧
      runFor 9 s = .refused .outputCapacityExceeded) ∧
    (∃ s, construct { } 117440 0 0 [0, 3, 5, 4, 3, 0] = .ok s ∧
      runFor 18 s = .ok [0, 3, 5, 4, 3, 0]) ∧
    (∃ s, construct { } 0 0 0 (withPair 5 4) = .ok s ∧ runFor 2 s = .ok [0] ∧
      [(0 : OutElem)].map BitVec.toNat ≠ (withPair 5 4).map BitVec.toNat) := by
  refine ⟨rfl, rfl, ⟨_, rfl, rfl⟩, ⟨_, _, rfl, rfl⟩, ⟨_, rfl, rfl⟩,
    ⟨_, rfl, rfl, 5, 5, rfl, rfl, rfl⟩, ⟨_, rfl, rfl, ?_⟩, ⟨_, rfl, rfl⟩, ⟨_, _, rfl, rfl⟩,
    ⟨_, rfl, rfl⟩, ⟨_, rfl, rfl⟩, ⟨_, rfl, rfl, by decide⟩⟩
  rintro ⟨e, x, he, hx, h⟩
  cases he
  cases hx
  revert h
  decide

/-- The level's two outcomes, for any attempt and for the search's own; a decode error in a trial, in a
validation, and in a validation reached through a trial that matches, after five mismatches: `[5,4,5,7]` emits A, here 5, then meets a combo
operand 7. -/
theorem witness_SearchLevelTakesFirstAnswer :
    tryDigits (fun n => if n < 3 then .notFound else .found n) 0 octalDigits = .found 3 ∧
    tryDigits (fun _ => .notFound) 0 octalDigits = .notFound ∧
    (candidateAnswer { } 9 [5, 4, 5, 7] 0 5 ≠ .notFound ∧
      ∀ d' < 5, candidateAnswer { } 9 [5, 4, 5, 7] 0 d' = .notFound) ∧
    (∀ d < 8, candidateAnswer { } 9 (withPair 4 0) 0 (0 * 8 + d) = .notFound) ∧
    trialRun { } 9 0 (truncated (withPair 0 7)) = .error (.fatal ⟨.reservedComboOperand, 0, 7⟩) ∧
    trialRun { } 9 0 (withPair 0 7) = .error (.fatal ⟨.reservedComboOperand, 0, 7⟩) ∧
    (trialRun { } 9 5 (truncated [5, 4, 5, 7]) = .ok [5] ∧
      firstMatches [5] [5, 4, 5, 7] 0 = true ∧
      trialRun { } 9 5 [5, 4, 5, 7] = .error (.fatal ⟨.reservedComboOperand, 2, 7⟩)) := by
  refine ⟨by decide, by decide, by decide, by decide, rfl, rfl, rfl, by decide, rfl⟩

end Sys2Proof.Tests
end

section
/-! SUPPORT. Where `pc` stands after an instruction and after a step (R16, R20). -/

namespace Sys2Proof

/-- Opcode 3 is the jump and no other instruction (R52). -/
theorem opcodeCell_toNat_eq_three_iff (i : Instr) :
    (opcodeCell i).toNat = 3 ↔ ∃ o, i = .jnz o := by
  cases i <;> simp [opcodeCell]

end Sys2Proof

namespace Sys2Proof.Machine

theorem Wrote.pc_eq {s t : State} (h : Wrote s t) : t.pc = s.pc + 2 := by
  cases h <;> simp

theorem Wrote.fault_eq {s t : State} (h : Wrote s t) : t.fault = s.fault := by
  cases h <;> simp

/-- The index the next fetch reads from when instruction `i` completes in `s` (R16). -/
def nextPc (i : Instr) (s : State) : Nat :=
  if (opcodeCell i).toNat = 3 ∧ s.a ≠ 0 then i.operand.toNat else s.pc + 2

theorem nextPc_jnz (o : Cell) (s : State) :
    nextPc (.jnz o) s = if s.a ≠ 0 then o.toNat else s.pc + 2 := by
  simp [nextPc, opcodeCell, Instr.operand]

theorem nextPc_of_not_jnz (i : Instr) (s : State) (h : ¬∃ o, i = .jnz o) :
    nextPc i s = s.pc + 2 :=
  if_neg fun hj => h ((opcodeCell_toNat_eq_three_iff i).1 hj.1)

/-- An instruction completes at `nextPc` and leaves the latch alone, or takes a decode error. Only for
the jump does it matter which of the two writes of `pc` was made. -/
theorem exec_next_pc (i : Instr) (s t : State) (h : exec i s = .next t) :
    (t.fault = s.fault ∧ t.pc = nextPc i s) ∨ ∃ k, t = s.latch k i.operand := by
  by_cases hj : ∃ o, i = .jnz o
  · obtain ⟨o, rfl⟩ := hj
    rw [nextPc_jnz]
    rcases execJnz_next o s t h with
      ⟨-, ha, rfl⟩ | ⟨-, ha, -, rfl⟩ | ⟨-, -, -, rfl⟩ | ⟨-, rfl⟩
    · exact .inl ⟨rfl, by simp [ha]⟩
    · exact .inl ⟨rfl, by simp [ha]⟩
    · exact .inr ⟨_, rfl⟩
    · exact .inr ⟨_, rfl⟩
  · rcases exec_next_cases i s t h with hw | ⟨o, ho, -⟩ | hk
    · exact .inl ⟨hw.fault_eq, hw.pc_eq.trans (nextPc_of_not_jnz i s hj).symm⟩
    · exact absurd ⟨o, ho⟩ hj
    · exact .inr hk

/-- A step that answers a next state either completes the instruction fetched, with `pc` at its `nextPc`
and no fault, or sets the latch and nothing else (R16, R20, R113). -/
theorem step_next_pc (s t : State) (h : step s = .next t) :
    (t.fault = none ∧ ∃ i, s.memRead s.pc = some (opcodeCell i) ∧
      s.memRead (s.pc + 1) = some i.operand ∧ t.pc = nextPc i s) ∨
    (∃ k x, t = s.latch k x) := by
  obtain ⟨hf, opc, o, hopc, ho, ⟨e, -, rfl⟩ | ⟨i, hi, hexec⟩⟩ := step_next_cases s t h
  · exact .inr ⟨_, _, rfl⟩
  · obtain ⟨rfl, rfl⟩ := (decodeOpcode_eq_some_iff opc o i).1 ((decode_eq_ok_iff opc o i).1 hi).1
    rcases exec_next_pc i s t hexec with ⟨hft, hpc⟩ | ⟨k, rfl⟩
    · exact .inl ⟨hft.trans hf, i, hopc, ho, hpc⟩
    · exact .inr ⟨_, _, rfl⟩

end Sys2Proof.Machine

open Sys2Proof Sys2Proof.Machine

/-- Settles O26: the instruction fetched determines `pc` after a step that completes, and a step that
faults writes the latch alone. -/
theorem pcAfterStep : Obligations.PcAfterStep := by
  intro s t opc o hstep hopc ho
  rcases step_next_pc s t hstep with ⟨hf, i, hopc', ho', hpc⟩ | ⟨k, x, rfl⟩
  · obtain rfl : opcodeCell i = opc := Option.some.inj (hopc'.symm.trans hopc)
    obtain rfl : i.operand = o := Option.some.inj (ho'.symm.trans ho)
    exact ⟨fun _ => hpc, fun hne => absurd hf hne⟩
  · exact ⟨fun hf => by simp at hf, fun _ => rfl⟩

end

section
/-! SUPPORT. What the Operand Resolver answers on each operand cell, and the decode error every
instruction with an illegal operand takes (R56, R57, R59). -/

namespace Sys2Proof

/-- Above 7 no cell is a literal operand (R56). -/
theorem operandCheck_literal_of_gt {o : Cell} (h : 7 < o.toNat) :
    operandCheck .literal o = some .operandOutOfRange :=
  if_neg (by omega)

/-- The one reserved combo operand (R57). -/
theorem operandCheck_combo_of_eq_seven {o : Cell} (h : o.toNat = 7) :
    operandCheck .combo o = some .reservedComboOperand := by
  simp [operandCheck, h]

/-- Above 7 no cell is a combo operand (R57). -/
theorem operandCheck_combo_of_gt {o : Cell} (h : 7 < o.toNat) :
    operandCheck .combo o = some .operandOutOfRange :=
  (if_neg (by omega)).trans (if_neg (by omega))

/-- The five instructions whose operand is read in combo mode (R51). -/
theorem mem_comboInstrs_iff (o : Cell) (i : Instr) :
    i ∈ [Instr.adv o, .bst o, .out o, .bdv o, .cdv o] ↔ i.mode = .combo ∧ i.operand = o := by
  cases i <;> simp [Instr.mode, Instr.operand]

end Sys2Proof

namespace Sys2Proof.Machine

theorem lit_ok_iff (o : Cell) (v : Nat) : lit o = .ok v ↔ o.toNat ≤ 7 ∧ o.toNat = v := by
  unfold lit
  split <;> simp_all

/-- In literal mode the resolver fails exactly as the decoder's check does (R56). -/
theorem lit_error_iff (o : Cell) (k : Cause) :
    lit o = .error k ↔ operandCheck .literal o = some k := by
  rw [lit_eq]
  cases operandCheck .literal o <;> simp

/-- The resolver's decode error ends the instruction, whatever its effect would have been (R59). -/
theorem withOperand_of_error {r : Except Cause Nat} {k : Cause} (h : r = .error k) (o : Cell)
    (s : State) (effect : Nat → Host.Outcome State Fault Refusal) :
    withOperand r o s effect = .next (s.latch k o) := by
  rw [h]
  rfl

/-- An instruction whose operand fails its mode's check sets the latch to that cause and changes
nothing else, in every state (R59, R113). -/
theorem exec_of_operandCheck_some (i : Instr) (s : State) (k : Cause)
    (h : operandCheck i.mode i.operand = some k) : exec i s = .next (s.latch k i.operand) := by
  cases i with
  | bxl o | jnz o => exact withOperand_of_error ((lit_error_iff o k).2 h) o s _
  | bxc o => simp [Instr.mode, operandCheck] at h
  | adv o | bst o | out o | bdv o | cdv o =>
    exact withOperand_of_error ((combo_error_iff o s k).2 h) o s _

/-- An illegal combo operand fails the resolver, and with it all five instructions that use the mode
(R57). -/
theorem combo_operand_error {o : Cell} {k : Cause} (h : operandCheck .combo o = some k) (s : State) :
    combo o s = .error k ∧ ∀ i ∈ [Instr.adv o, .bst o, .out o, .bdv o, .cdv o],
      exec i s = .next (s.latch k o) := by
  refine ⟨(combo_error_iff o s k).2 h, fun i hi => ?_⟩
  obtain ⟨hmode, hoperand⟩ := (mem_comboInstrs_iff o i).1 hi
  have hexec := exec_of_operandCheck_some i s k (by rwa [hmode, hoperand])
  rwa [hoperand] at hexec

end Sys2Proof.Machine

open Sys2Proof Sys2Proof.Machine

/-- Settles O7: the legal rows are the resolver's successes, and an operand of 7 or more fails the
check that all five instructions make. -/
theorem comboOperandResolution : Obligations.ComboOperandResolution := by
  intro o s
  refine ⟨fun h => ?_, fun h => ?_, fun h => ?_, fun h => ?_,
    fun h => combo_operand_error (operandCheck_combo_of_eq_seven h) s,
    fun h => combo_operand_error (operandCheck_combo_of_gt h) s⟩
  all_goals exact (combo_ok_iff o s _).2 (by simp [h])

/-- Settles O6: up to 7 the resolver succeeds, and above 7 the operand fails the check that both
instructions make. -/
theorem literalOperandResolution : Obligations.LiteralOperandResolution := by
  intro o
  refine ⟨fun h => (lit_ok_iff o _).2 ⟨h, rfl⟩, fun h => ?_⟩
  have hcheck := operandCheck_literal_of_gt h
  exact ⟨(lit_error_iff o _).2 hcheck, fun s =>
    ⟨exec_of_operandCheck_some (.bxl o) s _ hcheck, exec_of_operandCheck_some (.jnz o) s _ hcheck⟩⟩

end

section
/-! SUPPORT. Where a step answers the stop of a halted machine, and what Output and Run answer there
(R71, R76, R77, R136). -/

namespace Sys2Proof.Machine

/-- The stop `halted` marks exactly the unfaulted states with nothing to fetch: a decode error is a next
state, and no instruction ends in a stop (R70, R71, R113). -/
theorem step_eq_halted_iff (s : State) :
    step s = .fault .halted ↔ s.fault = none ∧ s.len ≤ s.pc + 1 := by
  rw [← fetch_eq_none_iff]
  unfold step
  cases s.fault with
  | some record => simp
  | none =>
    cases fetch s with
    | none => simp
    | some pair =>
      obtain ⟨opc, o⟩ := pair
      cases hd : decode opc o with
      | error reject => simp [hd, raise]
      | ok i => simp [hd, exec_ne_fault]

theorem outputOf_of_halted {s : State} (h : statusOf s = .halted) : outputOf s = some s.out := by
  simp [outputOf, h]

theorem runResultAt_of_halted {s : State} (h : statusOf s = .halted) :
    runResultAt s = .ok s.out := by
  simp [runResultAt, h]

/-- A run from a state with no step ends there, whatever the fuel (R76). -/
theorem runFor_of_step_fault {s : State} {r : Fault} (h : step s = .fault r) (n : Nat) :
    runFor n s = runResultAt s := by
  cases n with
  | zero => rfl
  | succ n => simp [runFor, h]

end Sys2Proof.Machine

open Sys2Proof Sys2Proof.Machine

/-- Settles O25: `pc + 1 >= len` in an unfaulted state is both the step's stop and the status Halted,
and the answers of Output and Run follow from these two. -/
theorem haltCondition : Obligations.HaltCondition := by
  intro s
  refine ⟨s.halted_iff, fun hf hle => ?_, fun hf hlt => ?_⟩
  · have hstep := (step_eq_halted_iff s).2 ⟨hf, hle⟩
    have hstatus := (statusOf_eq_halted_iff s).2 ⟨hf, hle⟩
    exact ⟨hstep, hstatus, outputOf_of_halted hstatus, fun n =>
      (runFor_of_step_fault hstep n).trans (runResultAt_of_halted hstatus)⟩
  · exact ⟨fun hstep => absurd ((step_eq_halted_iff s).1 hstep).2 (Nat.not_le.2 hlt),
      (statusOf_eq_running_iff s).2 ⟨hf, hlt⟩⟩

end

section
/-! SUPPORT. The rule the three divide instructions share, for every destination register (R85): the
quotient on a legal operand, its corner cases, the two exceptions and the encoding. -/

namespace Sys2Proof

/-- An instruction with a legal combo operand is what its own two cells decode to (R60). -/
theorem decode_combo_of_le_six {i : Instr} (hmode : i.mode = .combo) (h : i.operand.toNat ≤ 6) :
    decode (opcodeCell i) i.operand = .ok i := by
  refine (decode_eq_ok_iff _ _ i).2 ⟨(decodeOpcode_eq_some_iff _ _ i).2 ⟨rfl, rfl⟩, ?_⟩
  rw [hmode]
  exact if_pos h

end Sys2Proof

namespace Sys2Proof.Machine

open Sys2Proof.Safety

theorem combo_of_comboValue {o : Cell} {s : State} {v : Nat} (h : ComboValue o s v) :
    combo o s = .ok v :=
  (combo_ok_iff o s v).2 (by simpa only [@eq_comm Nat _ v] using h)

/-- The divide instruction whose destination is the given register (R86, R87, R88). -/
def divideInstr : Reg → Cell → Instr
  | .A => .adv
  | .B => .bdv
  | .C => .cdv

@[simp] theorem divideInstr_mode (r : Reg) (o : Cell) : (divideInstr r o).mode = .combo := by
  cases r <;> rfl

@[simp] theorem divideInstr_operand (r : Reg) (o : Cell) : (divideInstr r o).operand = o := by
  cases r <;> rfl

theorem exec_divideInstr (r : Reg) (o : Cell) (s : State) :
    exec (divideInstr r o) s = divideInto r o s := by
  cases r <;> rfl

/-- On a legal operand the quotient of A goes to the destination, whatever register the shift amount
was read from (R85). -/
theorem exec_divideInstr_of_comboValue (r : Reg) {o : Cell} {s : State} {v : Nat}
    (h : ComboValue o s v) :
    exec (divideInstr r o) s = .next (s.setReg r (s.a / 2 ^ v)).advance := by
  rw [exec_divideInstr, divideInto, combo_of_comboValue h, ← Nat.shiftRight_eq_div_pow]
  rfl

/-- Operand 0 divides by 1. -/
theorem exec_divideInstr_of_eq_zero (r : Reg) {o : Cell} (s : State) (h : o.toNat = 0) :
    exec (divideInstr r o) s = .next (s.setReg r s.a).advance := by
  have hv : ComboValue o s 0 := .inl ⟨by omega, h.symm⟩
  simpa using exec_divideInstr_of_comboValue r hv

/-- Operand 4 divides A by `2 ^ A`, which is above A (R89). -/
theorem exec_divideInstr_of_eq_four (r : Reg) {o : Cell} (s : State) (h : o.toNat = 4) :
    exec (divideInstr r o) s = .next (s.setReg r 0).advance := by
  have hv : ComboValue o s s.a := .inr (.inl ⟨h, rfl⟩)
  rw [exec_divideInstr_of_comboValue r hv, Nat.div_eq_of_lt Nat.lt_two_pow_self]

/-- An operand that fails the combo check sets the latch and changes nothing else (R59, R113). -/
theorem exec_divideInstr_of_operandCheck_some (r : Reg) {o : Cell} (s : State) {k : Cause}
    (h : operandCheck .combo o = some k) : exec (divideInstr r o) s = .next (s.latch k o) := by
  simpa using exec_of_operandCheck_some (divideInstr r o) s k (by simpa using h)

/-- The rule of the divide family, whole: R86, R87 and R88 are its instances at A, B and C. -/
theorem divideInstr_rule (r : Reg) (o : Cell) (s : State) :
    (∀ v, ComboValue o s v →
      exec (divideInstr r o) s = .next (s.setReg r (s.a / 2 ^ v)).advance) ∧
    (o.toNat = 0 → exec (divideInstr r o) s = .next (s.setReg r s.a).advance) ∧
    (o.toNat = 4 → exec (divideInstr r o) s = .next (s.setReg r 0).advance) ∧
    (o.toNat = 7 → exec (divideInstr r o) s = .next (s.latch .reservedComboOperand o)) ∧
    (7 < o.toNat → exec (divideInstr r o) s = .next (s.latch .operandOutOfRange o)) ∧
    (o.toNat ≤ 6 → decode (opcodeCell (divideInstr r o)) o = .ok (divideInstr r o)) := by
  refine ⟨fun v => exec_divideInstr_of_comboValue r, exec_divideInstr_of_eq_zero r s,
    exec_divideInstr_of_eq_four r s, fun h => ?_, fun h => ?_, fun h => ?_⟩
  · exact exec_divideInstr_of_operandCheck_some r s (operandCheck_combo_of_eq_seven h)
  · exact exec_divideInstr_of_operandCheck_some r s (operandCheck_combo_of_gt h)
  · simpa using decode_combo_of_le_six (divideInstr_mode r o) (by simpa using h)

end Sys2Proof.Machine

open Sys2Proof Sys2Proof.Machine

/-- Settles O8: the rule of the divide family at A; writing A back to itself changes nothing. -/
theorem advDividesAIntoA : Obligations.AdvDividesAIntoA := divideInstr_rule .A

/-- Settles O9: the rule of the divide family at B. -/
theorem bdvDividesAIntoB : Obligations.BdvDividesAIntoB := divideInstr_rule .B

/-- Settles O10: the rule of the divide family at C. -/
theorem cdvDividesAIntoC : Obligations.CdvDividesAIntoC := divideInstr_rule .C

end

section
/-! SUPPORT. What `bst` answers on a legal combo operand (R92). -/

namespace Sys2Proof.Machine

open Sys2Proof.Safety

/-- On a legal operand its value modulo 8 goes to B, whatever register it was read from (R92). -/
theorem exec_bst_of_comboValue {o : Cell} {s : State} {v : Nat} (h : ComboValue o s v) :
    exec (.bst o) s = .next (s.setReg .B (v % 8)).advance := by
  change execBst o s = _
  rw [execBst, combo_of_comboValue h]
  rfl

/-- Operands 0 to 3 are below 8 and give themselves (R57, R92). -/
theorem exec_bst_of_le_three {o : Cell} (s : State) (h : o.toNat ≤ 3) :
    exec (.bst o) s = .next (s.setReg .B o.toNat).advance := by
  have hv : ComboValue o s o.toNat := .inl ⟨h, rfl⟩
  rw [exec_bst_of_comboValue hv, Nat.mod_eq_of_lt (by omega)]

end Sys2Proof.Machine

open Sys2Proof Sys2Proof.Machine

/-- Settles O12: a legal operand resolves to a value whose remainder modulo 8 goes to B, and an
operand of 7 or more fails the check that every combo instruction makes. -/
theorem bstMasksOperandIntoB : Obligations.BstMasksOperandIntoB := by
  intro o s
  refine ⟨fun v hv => ⟨exec_bst_of_comboValue hv, ?_⟩, exec_bst_of_le_three s,
    fun h => ?_, fun h => ?_, fun h => ?_⟩
  · exact Nat.le_of_lt_succ (Nat.mod_lt v (by decide))
  · exact exec_of_operandCheck_some (.bst o) s _ (operandCheck_combo_of_eq_seven h)
  · exact exec_of_operandCheck_some (.bst o) s _ (operandCheck_combo_of_gt h)
  · exact decode_combo_of_le_six (i := .bst o) rfl h

end

section
/-! SUPPORT. The jump on a legal operand: not taken, taken, or refused for its alignment (R96, R97). -/

namespace Sys2Proof

/-- An instruction with a legal literal operand is what its own two cells decode to (R60). -/
theorem decode_literal_of_le_seven {i : Instr} (hmode : i.mode = .literal) (h : i.operand.toNat ≤ 7) :
    decode (opcodeCell i) i.operand = .ok i := by
  refine (decode_eq_ok_iff _ _ i).2 ⟨(decodeOpcode_eq_some_iff _ _ i).2 ⟨rfl, rfl⟩, ?_⟩
  rw [hmode]
  exact if_pos h

end Sys2Proof

namespace Sys2Proof.Machine

theorem State.jumpCondition_iff (s : State) : s.jumpCondition = true ↔ s.a ≠ 0 :=
  decide_eq_true_iff

theorem State.targetMisaligned_iff (s : State) (n : Nat) :
    s.targetMisaligned n = true ↔ s.cfg.strictJumpAlign = true ∧ n % 2 = 1 := by
  simp [State.targetMisaligned]

/-- On a legal operand the condition decides first, and the target's alignment is looked at only when
the jump is taken (R96, R97). -/
theorem exec_jnz_of_le_seven {o : Cell} (s : State) (h : o.toNat ≤ 7) :
    exec (.jnz o) s =
      if s.jumpCondition then
        if s.targetMisaligned o.toNat then .next (s.latch .misalignedJumpTarget o)
        else .next (s.jumpTo o.toNat)
      else .next s.advance := by
  change execJnz o s = _
  rw [execJnz, (lit_ok_iff o _).2 ⟨h, rfl⟩]
  rfl

/-- With A = 0 the jump is not taken, aligned or not (R96). -/
theorem exec_jnz_not_taken {o : Cell} {s : State} (h : o.toNat ≤ 7) (ha : s.a = 0) :
    exec (.jnz o) s = .next s.advance :=
  (exec_jnz_of_le_seven s h).trans (if_neg fun hj => s.jumpCondition_iff.1 hj ha)

/-- The target of a taken jump is the operand itself, with no advance on top (R96). -/
theorem exec_jnz_taken {o : Cell} {s : State} (h : o.toNat ≤ 7) (ha : s.a ≠ 0)
    (haligned : ¬(s.cfg.strictJumpAlign = true ∧ o.toNat % 2 = 1)) :
    exec (.jnz o) s = .next (s.jumpTo o.toNat) := by
  rw [exec_jnz_of_le_seven s h, if_pos (s.jumpCondition_iff.2 ha),
    if_neg (mt (s.targetMisaligned_iff _).1 haligned)]

/-- Under strict alignment an odd target sets the latch in place of the jump (R97, R113). -/
theorem exec_jnz_misaligned {o : Cell} {s : State} (h : o.toNat ≤ 7) (ha : s.a ≠ 0)
    (hstrict : s.cfg.strictJumpAlign = true) (hodd : o.toNat % 2 = 1) :
    exec (.jnz o) s = .next (s.latch .misalignedJumpTarget o) := by
  rw [exec_jnz_of_le_seven s h, if_pos (s.jumpCondition_iff.2 ha),
    if_pos ((s.targetMisaligned_iff _).2 ⟨hstrict, hodd⟩)]

end Sys2Proof.Machine

open Sys2Proof Sys2Proof.Machine

/-- Settles O14: on a legal operand A and then the alignment test choose among the jump's three
outcomes, and above 7 the operand fails the literal check before A is looked at. -/
theorem jnzJumpsWhenANonzero : Obligations.JnzJumpsWhenANonzero := by
  intro o s
  refine ⟨fun h => ⟨exec_jnz_not_taken h, exec_jnz_taken h, exec_jnz_misaligned h, ?_⟩, fun h => ?_⟩
  · exact decode_literal_of_le_seven (i := .jnz o) rfl h
  · exact exec_of_operandCheck_some (.jnz o) s _ (operandCheck_literal_of_gt h)

end

section
/-! SUPPORT. What `out` answers on a legal combo operand, at any capacity and with none (R101). -/

namespace Sys2Proof.Machine

open Sys2Proof.Safety

/-- Without a capacity there is always room (R2, decision D4). -/
theorem State.outRoom_of_outCap_eq_none {s : State} (hcap : s.cfg.outCap = none) :
    s.outRoom = true := by
  rw [State.outRoom, hcap]

/-- On a legal operand only the room left decides between the append and the refusal (R101, row U8). -/
theorem exec_out_of_comboValue {o : Cell} {s : State} {v : Nat} (h : ComboValue o s v) :
    exec (.out o) s =
      if s.outRoom then .next (s.outAppend (BitVec.ofNat 3 (v % 8))).advance
      else .refused .outputCapacityExceeded := by
  change execOut o s = _
  rw [execOut, combo_of_comboValue h]
  rfl

/-- With unbounded output the operand's value modulo 8 is always appended (R101). -/
theorem exec_out_of_outCap_eq_none {o : Cell} {s : State} {v : Nat} (hcap : s.cfg.outCap = none)
    (h : ComboValue o s v) :
    exec (.out o) s = .next (s.outAppend (BitVec.ofNat 3 (v % 8))).advance :=
  (exec_out_of_comboValue h).trans (if_pos (State.outRoom_of_outCap_eq_none hcap))

/-- Operands 0 to 3 are below 8 and append themselves (R57, R101). -/
theorem exec_out_of_le_three {o : Cell} {s : State} (hcap : s.cfg.outCap = none)
    (h : o.toNat ≤ 3) :
    exec (.out o) s = .next (s.outAppend (BitVec.ofNat 3 o.toNat)).advance := by
  have hv : ComboValue o s o.toNat := .inl ⟨h, rfl⟩
  rw [exec_out_of_outCap_eq_none hcap hv, Nat.mod_eq_of_lt (by omega)]

end Sys2Proof.Machine

open Sys2Proof Sys2Proof.Machine

/-- Settles O15: with unbounded output every legal operand finds room and its value modulo 8 is
appended, and an operand of 7 or more fails the check that every combo instruction makes. -/
theorem outAppendsLowThreeBits : Obligations.OutAppendsLowThreeBits := by
  intro o s hcap
  refine ⟨fun v => exec_out_of_outCap_eq_none hcap, exec_out_of_le_three hcap,
    fun h => ?_, fun h => ?_, fun h => ?_⟩
  · exact exec_of_operandCheck_some (.out o) s _ (operandCheck_combo_of_eq_seven h)
  · exact exec_of_operandCheck_some (.out o) s _ (operandCheck_combo_of_gt h)
  · exact decode_combo_of_le_six (i := .out o) rfl h

end

section
/-! SUPPORT. The next states of an instruction as a relation, one rule per outcome, and of a step: every
invariant below is a case analysis over these rules (R12, R16, R59, R72 to R75, R97, R113). -/

namespace Sys2Proof.Machine

/-- The state an instruction leads to, as rules: its effect on a legal operand, a jump refused for its
alignment, or the decode error of an illegal operand. -/
inductive Executes (s : State) : Instr → State → Prop where
  | divide (r : Reg) (o : Cell) (v : Nat) (hv : combo o s = .ok v) :
      Executes s (divideInstr r o) (s.setReg r (s.a >>> v)).advance
  | bxl (o : Cell) (ho : o.toNat ≤ 7) : Executes s (.bxl o) (s.setReg .B (s.b ^^^ o.toNat)).advance
  | bst (o : Cell) (v : Nat) (hv : combo o s = .ok v) :
      Executes s (.bst o) (s.setReg .B (v % 8)).advance
  | bxc (o : Cell) : Executes s (.bxc o) (s.setReg .B (s.b ^^^ s.c)).advance
  | out (o : Cell) (v : Nat) (hv : combo o s = .ok v) (hroom : s.outRoom = true) :
      Executes s (.out o) (s.outAppend (BitVec.ofNat 3 (v % 8))).advance
  | notTaken (o : Cell) (ho : o.toNat ≤ 7) (ha : s.a = 0) : Executes s (.jnz o) s.advance
  | taken (o : Cell) (ho : o.toNat ≤ 7) (ha : s.a ≠ 0)
      (haligned : s.targetMisaligned o.toNat = false) : Executes s (.jnz o) (s.jumpTo o.toNat)
  | misaligned (o : Cell) (ho : o.toNat ≤ 7) (ha : s.a ≠ 0)
      (hodd : s.targetMisaligned o.toNat = true) :
      Executes s (.jnz o) (s.latch .misalignedJumpTarget o)
  | illegal (i : Instr) (k : Cause) (hk : operandCheck i.mode i.operand = some k) :
      Executes s i (s.latch k i.operand)

theorem divideInto_executes {r : Reg} {o : Cell} {s t : State} (h : divideInto r o s = .next t) :
    Executes s (divideInstr r o) t := by
  rcases divideInto_next r o s t h with ⟨v, hv, rfl⟩ | ⟨k, hk, rfl⟩
  · exact .divide r o v hv
  · have hcheck := (combo_error_iff o s k).1 hk
    simpa using Executes.illegal (s := s) (divideInstr r o) k (by simpa using hcheck)

/-- The rules cover every next state of an instruction. -/
theorem executes_of_exec {i : Instr} {s t : State} (h : exec i s = .next t) : Executes s i t := by
  cases i with
  | adv o => exact divideInto_executes (r := .A) h
  | bdv o => exact divideInto_executes (r := .B) h
  | cdv o => exact divideInto_executes (r := .C) h
  | bxl o =>
    rcases execBxl_next o s t h with ⟨ho, rfl⟩ | ⟨ho, rfl⟩
    · exact .bxl o ho
    · exact .illegal (.bxl o) _ (operandCheck_literal_of_gt ho)
  | bst o =>
    rcases execBst_next o s t h with ⟨v, hv, rfl⟩ | ⟨k, hk, rfl⟩
    · exact .bst o v hv
    · exact .illegal (.bst o) k ((combo_error_iff o s k).1 hk)
  | bxc o =>
    rw [execBxc_next o s t h]
    exact .bxc o
  | out o =>
    rcases execOut_next o s t h with ⟨v, hv, hroom, rfl⟩ | ⟨k, hk, rfl⟩
    · exact .out o v hv hroom
    · exact .illegal (.out o) k ((combo_error_iff o s k).1 hk)
  | jnz o =>
    rcases execJnz_next o s t h with
      ⟨ho, ha, rfl⟩ | ⟨ho, ha, hm, rfl⟩ | ⟨ho, ha, hm, rfl⟩ | ⟨ho, rfl⟩
    · exact .notTaken o ho ha
    · exact .taken o ho ha hm
    · exact .misaligned o ho ha hm
    · exact .illegal (.jnz o) _ (operandCheck_literal_of_gt ho)

theorem withOperand_of_ok {r : Except Cause Nat} {v : Nat} (h : r = .ok v) (o : Cell) (s : State)
    (effect : Nat → Host.Outcome State Fault Refusal) : withOperand r o s effect = effect v := by
  rw [h]
  rfl

/-- Every rule is what the instruction does. -/
theorem Executes.exec_eq {s : State} {i : Instr} {t : State} (h : Executes s i t) :
    exec i s = .next t := by
  cases h with
  | divide r o v hv => exact (exec_divideInstr r o s).trans (withOperand_of_ok hv o s _)
  | bxl o ho => exact withOperand_of_ok ((lit_ok_iff o _).2 ⟨ho, rfl⟩) o s _
  | bst o v hv => exact withOperand_of_ok hv o s _
  | bxc o => rfl
  | out o v hv hroom => exact (withOperand_of_ok hv o s _).trans (if_pos hroom)
  | notTaken o ho ha => exact exec_jnz_not_taken ho ha
  | taken o ho ha haligned =>
    simp [exec_jnz_of_le_seven s ho, (s.jumpCondition_iff).2 ha, haligned]
  | misaligned o ho ha hodd =>
    simp [exec_jnz_of_le_seven s ho, (s.jumpCondition_iff).2 ha, hodd]
  | illegal i k hk => exact exec_of_operandCheck_some i s k hk

theorem exec_next_iff (i : Instr) (s t : State) : exec i s = .next t ↔ Executes s i t :=
  ⟨executes_of_exec, Executes.exec_eq⟩

/-- An accepted pair is executed, with nothing added around it (R74). -/
theorem step_of_decode_ok {s : State} {opc o : Cell} {i : Instr} (hf : s.fault = none)
    (hopc : s.memRead s.pc = some opc) (ho : s.memRead (s.pc + 1) = some o)
    (hd : decode opc o = .ok i) : step s = exec i s := by
  simp [step, hf, (fetch_eq_some_iff s opc o).2 ⟨hopc, ho⟩, hd]

/-- A rejected pair takes its decode error (R73, R113). -/
theorem step_of_decode_error {s : State} {opc o : Cell} {e : DecodeReject} (hf : s.fault = none)
    (hopc : s.memRead s.pc = some opc) (ho : s.memRead (s.pc + 1) = some o)
    (hd : decode opc o = .error e) : step s = .next (s.latch e.cause e.value) := by
  simp [step, hf, (fetch_eq_some_iff s opc o).2 ⟨hopc, ho⟩, hd, raise]

/-- A step leads to a next state by a decode error taken or by an instruction executed, from the pair
at `pc` alone. -/
theorem step_next_iff (s t : State) :
    step s = .next t ↔ s.fault = none ∧ ∃ opc o, s.memRead s.pc = some opc ∧
      s.memRead (s.pc + 1) = some o ∧
      ((∃ e, decode opc o = .error e ∧ t = s.latch e.cause e.value) ∨
        ∃ i, decode opc o = .ok i ∧ Executes s i t) := by
  constructor
  · simpa only [exec_next_iff] using step_next_cases s t
  · rintro ⟨hf, opc, o, hopc, ho, ⟨e, hd, rfl⟩ | ⟨i, hd, hi⟩⟩
    · exact step_of_decode_error hf hopc ho hd
    · exact (step_of_decode_ok hf hopc ho hd).trans hi.exec_eq

/-- A next state is a latched one or one the rules lead to: the form in which the invariants below use
a step, where the pair fetched does not matter. -/
theorem latch_or_executes_of_step {s t : State} (h : step s = .next t) :
    (∃ k x, t = s.latch k x) ∨ ∃ i, Executes s i t := by
  obtain ⟨-, -, -, -, -, ⟨e, -, rfl⟩ | ⟨i, -, hi⟩⟩ := (step_next_iff s t).1 h
  · exact .inl ⟨_, _, rfl⟩
  · exact .inr ⟨i, hi⟩

/-- A state that steps has a whole pair to fetch (R71). -/
theorem pc_lt_of_step {s t : State} (h : step s = .next t) : s.pc + 1 < s.len := by
  obtain ⟨-, opc, o, -, ho, -⟩ := (step_next_iff s t).1 h
  exact (memRead_isSome_iff s _).1 (by simp [ho])

end Sys2Proof.Machine
end

section
/-! SUPPORT. No instruction and no step writes the program or the parameters (R2, R40). -/

namespace Sys2Proof.Machine

theorem Executes.prog_cfg_eq {s t : State} {i : Instr} (h : Executes s i t) :
    t.prog = s.prog ∧ t.cfg = s.cfg := by
  cases h <;> simp

theorem prog_cfg_eq_of_step {s t : State} (h : step s = .next t) :
    t.prog = s.prog ∧ t.cfg = s.cfg := by
  rcases latch_or_executes_of_step h with ⟨k, x, rfl⟩ | ⟨i, hi⟩
  · exact ⟨rfl, rfl⟩
  · exact hi.prog_cfg_eq

theorem len_eq_of_prog_eq {s t : State} (h : t.prog = s.prog) : t.len = s.len :=
  congrArg List.length h

theorem memRead_eq_of_prog_eq {s t : State} (h : t.prog = s.prog) (j : Nat) :
    t.memRead j = s.memRead j :=
  congrArg (·[j]?) h

end Sys2Proof.Machine
end

section
/-! SUPPORT. No instruction lengthens a register beyond the longest and three bits (R14). -/

namespace Sys2Proof.Machine

open Sys2Proof.Safety

theorem regsBelow_setReg_advance {m : Nat} {s : State} (h : RegsBelow m s) (r : Reg) {v : Nat}
    (hv : v < 2 ^ m) : RegsBelow m (s.setReg r v).advance := by
  obtain ⟨ha, hb, hc⟩ := h
  cases r with
  | A => exact ⟨hv, hb, hc⟩
  | B => exact ⟨ha, hv, hc⟩
  | C => exact ⟨ha, hb, hv⟩

/-- What an instruction writes is a quotient of A, an XOR, or below 8, and so fits the bound. -/
theorem Executes.regsBelow {m : Nat} {s t : State} {i : Instr} (h : Executes s i t) (hm : 3 ≤ m)
    (hs : RegsBelow m s) : RegsBelow m t := by
  have h8 : 2 ^ 3 ≤ 2 ^ m := Nat.pow_le_pow_right (by decide) hm
  obtain ⟨ha, hb, hc⟩ := id hs
  cases h with
  | divide r o v => exact regsBelow_setReg_advance hs r ((Nat.shiftRight_le _ _).trans_lt ha)
  | bxl o ho => exact regsBelow_setReg_advance hs .B (Nat.xor_lt_two_pow hb (by omega))
  | bst o v => exact regsBelow_setReg_advance hs .B (by omega)
  | bxc o => exact regsBelow_setReg_advance hs .B (Nat.xor_lt_two_pow hb hc)
  | out | notTaken | taken | misaligned | illegal => exact hs

end Sys2Proof.Machine

open Sys2Proof Sys2Proof.Machine

/-- Settles O32: a decode error writes no register, and what an instruction writes fits the bound. -/
theorem stepKeepsRegistersBelow : Obligations.StepKeepsRegistersBelow := by
  intro m s t hm hs hstep
  rcases latch_or_executes_of_step hstep with ⟨k, x, rfl⟩ | ⟨i, hi⟩
  · exact hs
  · exact hi.regsBelow hm hs

end

section
/-! SUPPORT. The decoder and the encoder are inverse on the well-formed instructions (R52, R60), and which
opcodes have which operand mode (R51). -/

namespace Sys2Proof

/-- The decoder accepts exactly the two cells of a well-formed instruction, as that instruction. -/
theorem decode_eq_ok_iff_encode (opc o : Cell) (i : Instr) :
    decode opc o = .ok i ↔ encode i = (opc, o) ∧ i.wellFormed = true := by
  rw [decode_eq_ok_iff, decodeOpcode_eq_some_iff, operandCheck_eq_none_iff, encode, Prod.mk.injEq]
  exact and_congr_right fun ⟨_, ho⟩ => by rw [← ho]; rfl

theorem cells_of_decode_ok {opc o : Cell} {i : Instr} (h : decode opc o = .ok i) :
    opcodeCell i = opc ∧ i.operand = o :=
  (decodeOpcode_eq_some_iff opc o i).1 ((decode_eq_ok_iff opc o i).1 h).1

theorem legal_of_decode_ok {opc o : Cell} {i : Instr} (h : decode opc o = .ok i) :
    operandCheck i.mode i.operand = none :=
  (operandCheck_eq_none_iff _ _).2 ((decode_eq_ok_iff_encode opc o i).1 h).2

theorem decode_of_legal {i : Instr} (h : operandCheck i.mode i.operand = none) :
    decode (opcodeCell i) i.operand = .ok i :=
  (decode_eq_ok_iff_encode _ _ i).2 ⟨rfl, (operandCheck_eq_none_iff _ _).1 h⟩

/-- An instruction with an illegal operand is never decoded: its cells are rejected with the cause of the
operand check (R112). -/
theorem decode_of_operandCheck_some {i : Instr} {k : Cause}
    (h : operandCheck i.mode i.operand = some k) :
    decode (opcodeCell i) i.operand = .error ⟨k, i.operand⟩ :=
  (decode_eq_error_iff _ _ _).2
    (.inr ⟨i, k, (decodeOpcode_eq_some_iff _ _ i).2 ⟨rfl, rfl⟩, h, rfl⟩)

theorem mode_eq_combo_iff (i : Instr) :
    i.mode = .combo ↔ (opcodeCell i).toNat ∈ [0, 2, 5, 6, 7] := by
  cases i <;> simp [Instr.mode, opcodeCell]

theorem mode_eq_literal_iff (i : Instr) : i.mode = .literal ↔ (opcodeCell i).toNat ∈ [1, 3] := by
  cases i <;> simp [Instr.mode, opcodeCell]

theorem mode_ne_ignored_iff (i : Instr) :
    i.mode ≠ .ignored ↔ (opcodeCell i).toNat ∈ [0, 1, 2, 3, 5, 6, 7] := by
  cases i <;> simp [Instr.mode, opcodeCell]

/-- Every pair whose opcode is at most 7 holds the cells of some instruction, well formed or not. -/
theorem exists_instr_of_opcode_le {opc : Cell} (h : opc.toNat ≤ 7) (o : Cell) :
    ∃ i, opcodeCell i = opc ∧ i.operand = o := by
  cases hd : decodeOpcode opc o with
  | none => exact absurd ((decodeOpcode_eq_none_iff opc o).1 hd) (by omega)
  | some i => exact ⟨i, (decodeOpcode_eq_some_iff opc o i).1 hd⟩

theorem exists_combo_instr {opc : Cell} (h : opc.toNat ∈ [0, 2, 5, 6, 7]) (o : Cell) :
    ∃ i, opcodeCell i = opc ∧ i.operand = o ∧ i.mode = .combo := by
  obtain ⟨i, rfl, ho⟩ := exists_instr_of_opcode_le (opc := opc) (by simp at h; omega) o
  exact ⟨i, rfl, ho, (mode_eq_combo_iff i).2 h⟩

theorem exists_literal_instr {opc : Cell} (h : opc.toNat ∈ [1, 3]) (o : Cell) :
    ∃ i, opcodeCell i = opc ∧ i.operand = o ∧ i.mode = .literal := by
  obtain ⟨i, rfl, ho⟩ := exists_instr_of_opcode_le (opc := opc) (by simp at h; omega) o
  exact ⟨i, rfl, ho, (mode_eq_literal_iff i).2 h⟩

/-- What the operand check reports, whole (R56, R57, R58). -/
theorem operandCheck_eq_some_iff (m : OperandMode) (o : Cell) (k : Cause) :
    operandCheck m o = some k ↔
      (k = .reservedComboOperand ∧ m = .combo ∧ o.toNat = 7) ∨
        (k = .operandOutOfRange ∧ m ≠ .ignored ∧ 7 < o.toNat) := by
  cases m with
  | ignored => simp [operandCheck]
  | literal => simp [operandCheck, eq_comm, and_comm]
  | combo =>
    simp only [operandCheck]
    split_ifs with h6 h7
    · simp; omega
    · simp [h7, eq_comm]
    · simp [h7, eq_comm]; omega

end Sys2Proof

open Sys2Proof Sys2Proof.Machine

/-- Settles O2: a well-formed instruction is exactly what its own two cells decode to. -/
theorem decodeOfEncodeIsIdentity : Obligations.DecodeOfEncodeIsIdentity :=
  fun i h => (decode_eq_ok_iff_encode _ _ i).2 ⟨rfl, h⟩

/-- Settles O3: the converse direction of the same equivalence. -/
theorem encodeOfDecodeIsIdentity : Obligations.EncodeOfDecodeIsIdentity :=
  fun opc o i h => ((decode_eq_ok_iff_encode opc o i).1 h).symm

/-- Settles O4: the opcode fixes the instruction and its mode, and the operand is then checked in it. -/
theorem pairsAreClassified : Obligations.PairsAreClassified := by
  intro opc o
  refine ⟨fun h => (decode_eq_error_iff opc o _).2 (.inl ⟨h, rfl⟩), fun h => ?_, fun h => ?_,
    fun h => ?_⟩
  · obtain ⟨i, rfl, rfl, hmode⟩ := exists_combo_instr h o
    exact ⟨fun ho => ⟨i, decode_combo_of_le_six hmode ho, hmode, rfl⟩,
      fun ho => decode_of_operandCheck_some (hmode ▸ operandCheck_combo_of_eq_seven ho),
      fun ho => decode_of_operandCheck_some (hmode ▸ operandCheck_combo_of_gt ho)⟩
  · obtain ⟨i, rfl, rfl, hmode⟩ := exists_literal_instr h o
    exact ⟨fun ho => ⟨i, decode_literal_of_le_seven hmode ho, hmode, rfl⟩,
      fun ho => decode_of_operandCheck_some (hmode ▸ operandCheck_literal_of_gt ho)⟩
  · obtain rfl : opc = 4 := BitVec.eq_of_toNat_eq h
    rfl

/-- Settles O1: the decoder evaluated on thirteen words. -/
theorem decodeSampleWords : Obligations.DecodeSampleWords := by
  unfold Obligations.DecodeSampleWords
  decide

end

section
/-! SUPPORT. A well-formed program's pair at an even index decodes, its instruction sets no latch, and `pc`
stays even (R97, R133). -/

namespace Sys2Proof.Machine

/-- With a legal operand the only decode error left is a jump refused for its alignment (R111). -/
theorem Executes.fault_eq_or_misaligned {s t : State} {i : Instr} (h : Executes s i t)
    (hlegal : operandCheck i.mode i.operand = none) :
    t.fault = s.fault ∨ ∃ o, i = .jnz o ∧ s.a ≠ 0 ∧ s.targetMisaligned o.toNat = true ∧
      t = s.latch .misalignedJumpTarget o := by
  cases h with
  | misaligned o ho ha hodd => exact .inr ⟨o, rfl, ha, hodd, rfl⟩
  | illegal i k hk => simp [hk] at hlegal
  | divide | bxl | bst | bxc | out | notTaken | taken => exact .inl (by simp)

/-- `pc` stays even unless a jump takes it to an odd index (R16). -/
theorem Executes.pc_even {s t : State} {i : Instr} (h : Executes s i t) (hpc : s.pc % 2 = 0)
    (htarget : ∀ o, i = .jnz o → s.targetMisaligned o.toNat = false → o.toNat % 2 = 0) :
    t.pc % 2 = 0 := by
  cases h with
  | taken o ho ha haligned => exact htarget o rfl haligned
  | divide | bxl | bst | bxc | out | notTaken => simpa using hpc
  | misaligned | illegal => exact hpc

end Sys2Proof.Machine

namespace Sys2Proof.Safety

open Sys2Proof.Machine

theorem pairWellFormed_iff (opc o : Cell) :
    pairWellFormed opc o = true ↔
      (opc.toNat ∈ [0, 2, 5, 6, 7] → o.toNat ≠ 7) ∧ (opc.toNat = 3 → o.toNat % 2 = 0) := by
  simp only [pairWellFormed, Bool.and_eq_true, Bool.or_eq_true, Bool.not_eq_true',
    decide_eq_false_iff_not, decide_eq_true_eq, beq_iff_eq, imp_iff_not_or, ne_eq]

/-- A check of all pairs of the program holds of the pair fetched at an even `pc`. -/
theorem check_of_allPairs {s : State} {check : Cell → Cell → Bool} {opc o : Cell}
    (hall : allPairs check s.prog = true) (hpc : s.pc % 2 = 0) (hopc : s.memRead s.pc = some opc)
    (ho : s.memRead (s.pc + 1) = some o) : check opc o = true := by
  have hhalf : s.pc = 2 * (s.pc / 2) := by omega
  exact allPairs_read check s.prog (s.pc / 2) opc o hall (hhalf ▸ hopc) (hhalf ▸ ho)

/-- The pair read at an even index of a well-formed program has cells in range and no forbidden operand
(R133). -/
theorem pair_of_programWellFormed {s : State} {opc o : Cell}
    (hwf : programWellFormed s.prog = true) (hpc : s.pc % 2 = 0) (hopc : s.memRead s.pc = some opc)
    (ho : s.memRead (s.pc + 1) = some o) :
    opc.toNat ≤ 7 ∧ o.toNat ≤ 7 ∧ pairWellFormed opc o = true := by
  simp only [programWellFormed, Bool.and_eq_true, List.all_eq_true, decide_eq_true_eq] at hwf
  obtain ⟨hcells, hpairs⟩ := hwf
  exact ⟨hcells _ (List.mem_of_getElem? hopc), hcells _ (List.mem_of_getElem? ho),
    check_of_allPairs hpairs hpc hopc ho⟩

/-- Cells in range with no reserved operand pass the operand check, and a jump among them is even. -/
theorem exists_decode_ok_of_pairWellFormed {opc o : Cell} (hopc : opc.toNat ≤ 7) (ho : o.toNat ≤ 7)
    (hpair : pairWellFormed opc o = true) :
    ∃ i, decode opc o = .ok i ∧ ∀ o', i = .jnz o' → o'.toNat % 2 = 0 := by
  obtain ⟨i, rfl, rfl⟩ := exists_instr_of_opcode_le hopc o
  obtain ⟨hseven, heven⟩ := (pairWellFormed_iff _ _).1 hpair
  refine ⟨i, ?_, ?_⟩
  · cases hk : operandCheck i.mode i.operand with
    | none => exact decode_of_legal hk
    | some k =>
      rcases (operandCheck_eq_some_iff _ _ k).1 hk with ⟨-, hmode, h7⟩ | ⟨-, -, hgt⟩
      · exact absurd h7 (hseven ((mode_eq_combo_iff i).1 hmode))
      · omega
  · rintro o' rfl
    exact heven rfl

end Sys2Proof.Safety

open Sys2Proof Sys2Proof.Machine Sys2Proof.Safety

/-- Settles O36: the pair at an even index decodes to an instruction with a legal operand, whose only
jumps are even, so it neither faults nor makes `pc` odd. -/
theorem wellFormedProgramNeverFaults : Obligations.WellFormedProgramNeverFaults := by
  rintro s t ⟨hwf, hf, hpc⟩ hstep
  obtain ⟨-, opc, o, hopc, ho, -⟩ := (step_next_iff s t).1 hstep
  obtain ⟨hopc7, ho7, hpair⟩ := pair_of_programWellFormed hwf hpc hopc ho
  obtain ⟨i, hd, heven⟩ := exists_decode_ok_of_pairWellFormed hopc7 ho7 hpair
  have hi : Executes s i t :=
    executes_of_exec ((step_of_decode_ok hf hopc ho hd).symm.trans hstep)
  refine ⟨hi.prog_cfg_eq.1 ▸ hwf, ?_, hi.pc_even hpc fun o' ho' _ => heven o' ho'⟩
  rcases hi.fault_eq_or_misaligned (legal_of_decode_ok hd) with hft | ⟨o', ho', -, hodd, -⟩
  · exact hft.trans hf
  · have htarget := ((s.targetMisaligned_iff _).1 hodd).2
    exact absurd (heven o' ho') (by omega)

end

section
/-! SUPPORT. Which register an instruction writes, and how (R11). -/

namespace Sys2Proof.Machine

theorem Executes.a_eq {s t : State} {i : Instr} (h : Executes s i t)
    (hop : (opcodeCell i).toNat ≠ 0) : t.a = s.a := by
  cases h with
  | divide r o v => cases r <;> simp [divideInstr, opcodeCell] at hop ⊢
  | bxl | bst | bxc | out | notTaken | taken | misaligned | illegal => simp

theorem Executes.b_eq {s t : State} {i : Instr} (h : Executes s i t)
    (hop : (opcodeCell i).toNat ∉ [1, 2, 4, 6]) : t.b = s.b := by
  cases h with
  | divide r o v => cases r <;> simp [divideInstr, opcodeCell] at hop ⊢
  | bxl | bst | bxc => simp [opcodeCell] at hop
  | out | notTaken | taken | misaligned | illegal => simp

theorem Executes.c_eq {s t : State} {i : Instr} (h : Executes s i t)
    (hop : (opcodeCell i).toNat ≠ 7) : t.c = s.c := by
  cases h with
  | divide r o v => cases r <;> simp [divideInstr, opcodeCell] at hop ⊢
  | bxl | bst | bxc | out | notTaken | taken | misaligned | illegal => simp

theorem Executes.out_eq {s t : State} {i : Instr} (h : Executes s i t)
    (hop : (opcodeCell i).toNat ≠ 5) : t.out = s.out := by
  cases h with
  | out => simp [opcodeCell] at hop
  | divide | bxl | bst | bxc | notTaken | taken | misaligned | illegal => simp

/-- A is only ever divided (R14). -/
theorem Executes.a_le {s t : State} {i : Instr} (h : Executes s i t) : t.a ≤ s.a := by
  cases h with
  | divide r o v =>
    cases r with
    | A => exact Nat.shiftRight_le s.a v
    | B | C => exact le_rfl
  | bxl | bst | bxc | out | notTaken | taken | misaligned | illegal => exact le_rfl

/-- The output is only ever appended to, one element at a time (R21). -/
theorem Executes.out_eq_or_append {s t : State} {i : Instr} (h : Executes s i t) :
    t.out = s.out ∨ ∃ e, t.out = s.out ++ [e] := by
  cases h with
  | out o v => exact .inr ⟨_, rfl⟩
  | divide | bxl | bst | bxc | notTaken | taken | misaligned | illegal => exact .inl (by simp)

end Sys2Proof.Machine

open Sys2Proof Sys2Proof.Machine

/-- Settles O27: each of the three shapes of a next state is one of the cases. -/
theorem stepWritesOneDestination : Obligations.StepWritesOneDestination := by
  intro s t hstep
  obtain ⟨hf, opc, o, -, -, ⟨e, -, rfl⟩ | ⟨i, -, hexec⟩⟩ := step_next_cases s t hstep
  · exact .inr ⟨by simp, rfl⟩
  · rcases exec_next_cases i s t hexec with hw | ⟨o', -, -, -, rfl⟩ | ⟨k, rfl⟩
    · refine .inl ⟨hw.fault_eq.trans hf, ?_⟩
      cases hw with
      | reg r v =>
        cases r with
        | A => exact .inr (.inl rfl)
        | B => exact .inr (.inr (.inl rfl))
        | C => exact .inr (.inr (.inr (.inl rfl)))
      | out v => exact .inr (.inr (.inr (.inr rfl)))
      | nothing => exact .inl rfl
    · exact .inl ⟨hf, .inl rfl⟩
    · exact .inr ⟨by simp, rfl⟩

/-- Settles O28: an instruction with any other opcode leaves the destination as it was. -/
theorem writersOfEachRegister : Obligations.WritersOfEachRegister := by
  intro s t opc hstep hopc
  obtain ⟨-, opc', o, hopc', -, ⟨e, -, rfl⟩ | ⟨i, hd, hi⟩⟩ := (step_next_iff s t).1 hstep
  · simp
  · obtain rfl : opcodeCell i = opc :=
      (cells_of_decode_ok hd).1.trans (Option.some.inj (hopc'.symm.trans hopc))
    exact ⟨fun ha => ⟨not_imp_comm.1 hi.a_eq ha, lt_of_le_of_ne hi.a_le ha⟩,
      not_imp_comm.1 hi.b_eq, not_imp_comm.1 hi.c_eq,
      fun ho => ⟨not_imp_comm.1 hi.out_eq ho, hi.out_eq_or_append.resolve_left ho⟩⟩

end

section
/-! SUPPORT. A step reads no cell but the pair at `pc`, and never the output (R21, R31, R53). -/

namespace Sys2Proof.Machine

/-- No instruction reads or writes the program. -/
theorem Executes.with_prog {s t : State} {i : Instr} (h : Executes s i t) (p : Program) :
    Executes { s with prog := p } i { t with prog := p } := by
  cases h with
  | divide r o v hv => cases r <;> exact .divide _ o v hv
  | bxl o ho => exact .bxl o ho
  | bst o v hv => exact .bst o v hv
  | bxc o => exact .bxc o
  | out o v hv hroom => exact .out o v hv hroom
  | notTaken o ho ha => exact .notTaken o ho ha
  | taken o ho ha haligned => exact .taken o ho ha haligned
  | misaligned o ho ha hodd => exact .misaligned o ho ha hodd
  | illegal i k hk => exact .illegal i k hk

/-- Only `out` writes the output, and with room for every element it does not read it either. -/
theorem Executes.with_out {s t : State} {i : Instr} (h : Executes s i t) (hcap : s.cfg.outCap = none)
    (l' : List OutElem) :
    ∃ l, l.length ≤ 1 ∧ t.out = s.out ++ l ∧
      Executes { s with out := l' } i { t with out := l' ++ l } := by
  have same : t.out = s.out → Executes { s with out := l' } i { t with out := l' } →
      ∃ l, l.length ≤ 1 ∧ t.out = s.out ++ l ∧
        Executes { s with out := l' } i { t with out := l' ++ l } :=
    fun hout hi => ⟨[], by simp, by simpa using hout, by simpa using hi⟩
  cases h with
  | divide r o v hv => exact same (by simp) (by cases r <;> exact .divide _ o v hv)
  | bxl o ho => exact same rfl (.bxl o ho)
  | bst o v hv => exact same rfl (.bst o v hv)
  | bxc o => exact same rfl (.bxc o)
  | out o v hv hroom =>
    exact ⟨[BitVec.ofNat 3 (v % 8)], le_rfl, rfl,
      .out o v hv (State.outRoom_of_outCap_eq_none hcap)⟩
  | notTaken o ho ha => exact same rfl (.notTaken o ho ha)
  | taken o ho ha haligned => exact same rfl (.taken o ho ha haligned)
  | misaligned o ho ha hodd => exact same rfl (.misaligned o ho ha hodd)
  | illegal i k hk => exact same rfl (.illegal i k hk)

end Sys2Proof.Machine

open Sys2Proof Sys2Proof.Machine

/-- Settles O29: the other program gives the same pair at `pc`, hence the same rule. -/
theorem stepReadsOnlyFetchedPair : Obligations.StepReadsOnlyFetchedPair := by
  intro s t p hstep _ hpc hpc'
  obtain ⟨hf, opc, o, hopc, ho, hcases⟩ := (step_next_iff s t).1 hstep
  refine (step_next_iff _ _).2 ⟨hf, opc, o, hpc.trans hopc, hpc'.trans ho, ?_⟩
  rcases hcases with ⟨e, hd, rfl⟩ | ⟨i, hd, hi⟩
  · exact .inl ⟨e, hd, rfl⟩
  · exact .inr ⟨i, hd, hi.with_prog p⟩

/-- Settles O30: a decode error appends nothing, and an instruction appends the same to any output. -/
theorem outputIsNeverRead : Obligations.OutputIsNeverRead := by
  intro s t l' hcap hstep
  obtain ⟨hf, opc, o, hopc, ho, ⟨e, hd, rfl⟩ | ⟨i, hd, hi⟩⟩ := (step_next_iff s t).1 hstep
  · refine ⟨[], by simp, by simp, (step_next_iff _ _).2 ⟨hf, opc, o, hopc, ho, .inl ⟨e, hd, ?_⟩⟩⟩
    simp [State.latch]
  · obtain ⟨l, hlen, hout, hi'⟩ := hi.with_out hcap l'
    exact ⟨l, hlen, hout, (step_next_iff _ _).2 ⟨hf, opc, o, hopc, ho, .inr ⟨i, hd, hi'⟩⟩⟩

end

section
/-! SUPPORT. The latch, the program counter and the existence of a step (R16, R17, R70, R97, R111). -/

namespace Sys2Proof.Machine

open Sys2Proof.Safety

/-- The decoder's rejection meets its cause's condition (R111). -/
theorem latchTruthful_of_decode_error {s : State} {opc o : Cell} {e : DecodeReject}
    (hopc : s.memRead s.pc = some opc) (ho : s.memRead (s.pc + 1) = some o)
    (hd : decode opc o = .error e) : LatchTruthful (s.latch e.cause e.value) := by
  rintro r ⟨⟩
  refine ⟨opc, o, hopc, ho, rfl, ?_⟩
  rcases (decode_eq_error_iff opc o e).1 hd with ⟨hgt, rfl⟩ | ⟨i, k, hsel, hk, rfl⟩
  · exact ⟨hgt, rfl⟩
  · obtain ⟨rfl, rfl⟩ := (decodeOpcode_eq_some_iff opc o i).1 hsel
    rcases (operandCheck_eq_some_iff _ _ k).1 hk with ⟨rfl, hmode, h7⟩ | ⟨rfl, hmode, hgt⟩
    · exact ⟨(mode_eq_combo_iff i).1 hmode, h7, rfl⟩
    · exact ⟨(mode_ne_ignored_iff i).1 hmode, hgt, rfl⟩

theorem withOperand_exists_next (r : Except Cause Nat) (o : Cell) (s : State)
    {effect : Nat → Host.Outcome State Fault Refusal} (h : ∀ v, ∃ t, effect v = .next t) :
    ∃ t, withOperand r o s effect = .next t := by
  cases r with
  | ok v => exact h v
  | error k => exact ⟨_, rfl⟩

/-- Without a capacity every instruction leads to a next state (R75, R101, row U8). -/
theorem exec_next_of_outCap_eq_none (i : Instr) {s : State} (hcap : s.cfg.outCap = none) :
    ∃ t, exec i s = .next t := by
  cases i with
  | bxc o => exact ⟨_, rfl⟩
  | adv o | bdv o | cdv o | bxl o | bst o =>
    exact withOperand_exists_next _ o s fun v => ⟨_, rfl⟩
  | out o =>
    exact withOperand_exists_next _ o s fun v =>
      ⟨_, if_pos (State.outRoom_of_outCap_eq_none hcap)⟩
  | jnz o =>
    refine withOperand_exists_next _ o s fun v => ?_
    split_ifs
    · exact ⟨_, rfl⟩
    · exact ⟨_, rfl⟩
    · exact ⟨_, rfl⟩

theorem step_of_fault {s : State} {r : FaultRecord} (h : s.fault = some r) :
    step s = .fault (.latched r) := by
  simp [step, h]

/-- A whole pair at `pc` is fetched (R71, R72). -/
theorem exists_pair_of_pc_lt {s : State} (h : s.pc + 1 < s.len) :
    ∃ opc o, s.memRead s.pc = some opc ∧ s.memRead (s.pc + 1) = some o := by
  obtain ⟨opc, hopc⟩ := Option.isSome_iff_exists.1 ((memRead_isSome_iff s s.pc).2 (by omega))
  obtain ⟨o, ho⟩ := Option.isSome_iff_exists.1 ((memRead_isSome_iff s (s.pc + 1)).2 h)
  exact ⟨opc, o, hopc, ho⟩

/-- With no fault, a pair to fetch and room for the output, a step exists (R70). -/
theorem exists_step_next {s : State} (hf : s.fault = none) (hlt : s.pc + 1 < s.len)
    (hcap : s.cfg.outCap = none) : ∃ t, step s = .next t := by
  obtain ⟨opc, o, hopc, ho⟩ := exists_pair_of_pc_lt hlt
  cases hd : decode opc o with
  | error e => exact ⟨_, step_of_decode_error hf hopc ho hd⟩
  | ok i => exact step_of_decode_ok hf hopc ho hd ▸ exec_next_of_outCap_eq_none i hcap

end Sys2Proof.Machine

open Sys2Proof Sys2Proof.Machine Sys2Proof.Safety

/-- Settles O31: a latch set by a step comes from the decoder's rejection or, the operand being legal,
from a jump refused for its alignment. -/
theorem latchTellsTheTruth : Obligations.LatchTellsTheTruth := by
  intro s t hstep
  obtain ⟨hf, opc, o, hopc, ho, ⟨e, hd, rfl⟩ | ⟨i, hd, hi⟩⟩ := (step_next_iff s t).1 hstep
  · exact latchTruthful_of_decode_error hopc ho hd
  · rcases hi.fault_eq_or_misaligned (legal_of_decode_ok hd) with hft | ⟨o', rfl, ha, hodd, rfl⟩
    · intro r hr
      simp [hft, hf] at hr
    · obtain ⟨rfl, rfl⟩ := cells_of_decode_ok hd
      obtain ⟨hstrict, hodd⟩ := (s.targetMisaligned_iff _).1 hodd
      rintro r ⟨⟩
      exact ⟨_, _, hopc, ho, rfl, hstrict, rfl, ha, hodd, rfl⟩

/-- Settles O34: an advance is from a whole pair, and a jump's target is at most 7. -/
theorem stepKeepsPcBounded : Obligations.StepKeepsPcBounded := by
  intro s t hs hstep
  have hlt := pc_lt_of_step hstep
  have hlen : t.len = s.len := len_eq_of_prog_eq (prog_cfg_eq_of_step hstep).1
  change t.pc ≤ max t.len 7
  rw [hlen]
  obtain ⟨-, opc, o, -, -, ⟨e, -, rfl⟩ | ⟨i, -, hexec⟩⟩ := step_next_cases s t hstep
  · exact hs
  · rcases exec_next_cases i s t hexec with hw | ⟨o', -, ho', -, rfl⟩ | ⟨k, rfl⟩
    · rw [hw.pc_eq]
      omega
    · exact le_max_of_le_right ho'
    · exact hs

/-- Settles O35: under strict alignment a taken jump's target is even. -/
theorem strictAlignmentKeepsPcEven : Obligations.StrictAlignmentKeepsPcEven := by
  intro s t hstrict hpc hstep
  rcases latch_or_executes_of_step hstep with ⟨k, x, rfl⟩ | ⟨i, hi⟩
  · exact hpc
  · refine hi.pc_even hpc fun o _ haligned => ?_
    simpa [State.targetMisaligned, hstrict] using haligned

/-- Settles O24: the two stops are tested before the fetch, and every other state has a step. -/
theorem stepExistsUnlessStopped : Obligations.StepExistsUnlessStopped :=
  fun s => ⟨fun _ => step_of_fault, fun hf hle => (step_eq_halted_iff s).2 ⟨hf, hle⟩,
    exists_step_next⟩

/-- Settles O37: the step exists, and the invariant of a safe run says that it sets no latch. -/
theorem wellFormedProgramProgresses : Obligations.WellFormedProgramProgresses := by
  intro s hs hlt hcap
  obtain ⟨t, hstep⟩ := exists_step_next hs.2.1 hlt hcap
  obtain ⟨-, hft, -⟩ := wellFormedProgramNeverFaults s t hs hstep
  exact ⟨t, hstep, hft⟩

end

section
/-! SUPPORT. Several steps: a run's first step, and what it comes to within its fuel (R76, R77, R78). -/

namespace Sys2Proof.Safety

open Sys2Proof.Machine

theorem stepsN_succ_eq_some_iff (n : Nat) (s t : State) :
    stepsN (n + 1) s = some t ↔ ∃ u, step s = .next u ∧ stepsN n u = some t := by
  simp only [stepsN]
  cases step s <;> simp

theorem stepsN_zero_eq_some_iff (s t : State) : stepsN 0 s = some t ↔ s = t :=
  Option.some_inj

/-- A step keeps the program and the parameters, does not raise A, and adds at most one element to the
output (R11, R21, R40). -/
theorem step_extends {s t : State} (h : step s = .next t) :
    t.prog = s.prog ∧ t.cfg = s.cfg ∧ t.a ≤ s.a ∧ ∃ l, t.out = s.out ++ l ∧ l.length ≤ 1 := by
  obtain ⟨hprog, hcfg⟩ := prog_cfg_eq_of_step h
  refine ⟨hprog, hcfg, ?_⟩
  rcases latch_or_executes_of_step h with ⟨k, x, rfl⟩ | ⟨i, hi⟩
  · exact ⟨le_rfl, [], by simp, by simp⟩
  · refine ⟨hi.a_le, ?_⟩
    rcases hi.out_eq_or_append with ho | ⟨e, ho⟩
    · exact ⟨[], by simpa using ho, by simp⟩
    · exact ⟨[e], ho, le_rfl⟩

/-- A state that steps is in none of the two states in which a run ends (R70, R76). -/
theorem runResultAt_of_step_ne_fault {s : State} (h : ∀ r, step s ≠ .fault r) :
    runResultAt s = .unfinished s := by
  have hf : s.fault = none := by
    by_contra hne
    obtain ⟨r, hr⟩ := Option.ne_none_iff_exists'.1 hne
    exact h _ (step_of_fault hr)
  have hlt : s.pc + 1 < s.len := by
    by_contra hge
    exact h _ ((step_eq_halted_iff s).2 ⟨hf, by omega⟩)
  simp [runResultAt, (statusOf_eq_running_iff s).2 ⟨hf, hlt⟩]

theorem runResultAt_eq_ok_iff (s : State) (o : List OutElem) :
    runResultAt s = .ok o ↔ Final s ∧ o = s.out := by
  rw [Final, ← statusOf_eq_halted_iff, runResultAt]
  cases statusOf s <;> simp [eq_comm]

theorem runResultAt_eq_fatal_iff (s : State) (r : FaultRecord) :
    runResultAt s = .fatal r ↔ s.fault = some r := by
  rw [← statusOf_eq_faulted_iff, runResultAt]
  cases statusOf s <;> simp

/-- What a run reaches within one step more is its own state or what its next state reaches. -/
theorem exists_within_succ_iff (P : State → Prop) (n : Nat) (s : State) :
    (∃ k t, k ≤ n + 1 ∧ stepsN k s = some t ∧ P t) ↔
      P s ∨ ∃ u, step s = .next u ∧ ∃ k t, k ≤ n ∧ stepsN k u = some t ∧ P t := by
  constructor
  · rintro ⟨k, t, hk, hrun, ht⟩
    cases k with
    | zero => exact .inl ((stepsN_zero_eq_some_iff s t).1 hrun ▸ ht)
    | succ k =>
      obtain ⟨u, hstep, hrun'⟩ := (stepsN_succ_eq_some_iff k s t).1 hrun
      exact .inr ⟨u, hstep, k, t, by omega, hrun', ht⟩
  · rintro (hs | ⟨u, hstep, k, t, hk, hrun, ht⟩)
    · exact ⟨0, s, by omega, rfl, hs⟩
    · exact ⟨k + 1, t, by omega, (stepsN_succ_eq_some_iff k s t).2 ⟨u, hstep, hrun⟩, ht⟩

/-- An answer that ends a run is what some state reached within the fuel has come to. -/
theorem runFor_eq_iff {r : RunResult} (hunfinished : ∀ u, r ≠ .unfinished u)
    (hrefused : ∀ x, r ≠ .refused x) (n : Nat) (s : State) :
    runFor n s = r ↔ ∃ k t, k ≤ n ∧ stepsN k s = some t ∧ runResultAt t = r := by
  induction n generalizing s with
  | zero => simp [runFor, stepsN]
  | succ n ih =>
    have hruns : (∀ x, step s ≠ .fault x) → runResultAt s ≠ r := fun h hr =>
      hunfinished s (hr.symm.trans (runResultAt_of_step_ne_fault h))
    rw [exists_within_succ_iff (runResultAt · = r)]
    cases hstep : step s with
    | next u => simp [runFor, hstep, ih, hruns (by simp [hstep])]
    | fault x => simp [runFor, hstep]
    | refused x => simp [runFor, hstep, (hrefused x).symm, hruns (by simp [hstep])]

/-- A completed step at an even index of a program without jumps advances by one pair (R80). -/
theorem pc_eq_of_jumpFree {s u : State} (hfree : jumpFree s.prog = true) (hpc : s.pc % 2 = 0)
    (hstep : step s = .next u) (hu : u.fault = none) : u.pc = s.pc + 2 := by
  rcases step_next_pc s u hstep with ⟨-, i, hopc, ho, hnext⟩ | ⟨k, x, rfl⟩
  · have hne : (opcodeCell i).toNat ≠ 3 := by
      simpa using check_of_allPairs hfree hpc hopc ho
    exact hnext.trans (if_neg fun h => hne h.1)
  · simp at hu

/-- Each step of a program without jumps uses up a pair; a step that faults is the last (R80, R114). -/
theorem stepsN_bound_of_jumpFree {n : Nat} {s t : State} (hfree : jumpFree s.prog = true)
    (hpc : s.pc % 2 = 0) (h : stepsN n s = some t) : n = 0 ∨ s.pc + 2 * n ≤ s.len := by
  induction n generalizing s with
  | zero => exact .inl rfl
  | succ n ih =>
    obtain ⟨u, hstep, hrun⟩ := (stepsN_succ_eq_some_iff n s t).1 h
    have hlt := pc_lt_of_step hstep
    cases n with
    | zero => omega
    | succ n =>
      obtain ⟨v, hstep', -⟩ := (stepsN_succ_eq_some_iff n u t).1 hrun
      have hu : u.fault = none := ((step_next_iff u v).1 hstep').1
      have hprog : u.prog = s.prog := (prog_cfg_eq_of_step hstep).1
      have hupc := pc_eq_of_jumpFree hfree hpc hstep hu
      have hlen := len_eq_of_prog_eq hprog
      have hbound := ih (hprog ▸ hfree) (by omega) hrun
      omega

end Sys2Proof.Safety

open Sys2Proof Sys2Proof.Machine Sys2Proof.Safety

/-- Settles O33: the initial registers meet the bound, and every step keeps it. -/
theorem runNeverLengthensRegisters : Obligations.RunNeverLengthensRegisters := by
  intro cfg a b c p n t hrun
  refine stepsN_keeps _ (fun s u => stepKeepsRegistersBelow _ s u (le_max_left _ _)) n _ t ?_ hrun
  exact ⟨(bitLen_le_iff _ _).1 (by simp), (bitLen_le_iff _ _).1 (by simp),
    (bitLen_le_iff _ _).1 (by simp)⟩

/-- Settles O38: by induction on the number of steps. -/
theorem runKeepsProgramAndExtendsOutput : Obligations.RunKeepsProgramAndExtendsOutput := by
  intro n
  induction n with
  | zero =>
    rintro s t h
    obtain rfl := (stepsN_zero_eq_some_iff s t).1 h
    exact ⟨rfl, rfl, le_rfl, [], by simp, le_rfl⟩
  | succ n ih =>
    intro s t h
    obtain ⟨u, hstep, hrun⟩ := (stepsN_succ_eq_some_iff n s t).1 h
    obtain ⟨hprog, hcfg, ha, l, hout, hlen⟩ := step_extends hstep
    obtain ⟨hprog', hcfg', ha', l', hout', hlen'⟩ := ih u t hrun
    exact ⟨hprog'.trans hprog, hcfg'.trans hcfg, ha'.trans ha, l ++ l', by simp [hout', hout],
      by simp; omega⟩

/-- Settles O39: from `pc` 0 the run's steps fill its pairs one by one. -/
theorem jumpFreeRunEnds : Obligations.JumpFreeRunEnds := by
  intro cfg a b c p n t hfree hrun
  have hbound := stepsN_bound_of_jumpFree (s := State.fresh cfg a b c p) hfree rfl hrun
  simp only [State.fresh_pc, State.len_def, State.fresh_prog] at hbound
  omega

/-- Settles O40: Ok and Fatal are answers that end a run. -/
theorem runAnswersWhereItStops : Obligations.RunAnswersWhereItStops := by
  refine fun n s => ⟨fun o => ?_, fun r => ?_⟩
  · simpa only [runResultAt_eq_ok_iff] using runFor_eq_iff (r := .ok o) nofun nofun n s
  · simpa only [runResultAt_eq_fatal_iff] using runFor_eq_iff (r := .fatal r) nofun nofun n s

end

section
/-! SUPPORT. What `bxl` and `bxc` answer, the two bitwise operations bit by bit, and the shared division
(R85, R90, R91, R93). -/

namespace Sys2Proof.Machine

/-- XOR with a number of three bits keeps the bits above them (R91). -/
theorem xor_div_eight (b : Nat) {n : Nat} (h : n ≤ 7) : (b ^^^ n) / 8 = b / 8 := by
  have hn : n >>> 3 = 0 := by rw [Nat.shiftRight_eq_div_pow]; omega
  change (b ^^^ n) / 2 ^ 3 = b / 2 ^ 3
  rw [← Nat.shiftRight_eq_div_pow, ← Nat.shiftRight_eq_div_pow, Nat.shiftRight_xor_distrib, hn,
    Nat.xor_zero]

theorem exec_bxl_of_le_seven {o : Cell} (s : State) (h : o.toNat ≤ 7) :
    exec (.bxl o) s = .next (s.setReg .B (s.b ^^^ o.toNat)).advance :=
  (Executes.bxl o h).exec_eq

theorem exec_bxc (o : Cell) (s : State) :
    exec (.bxc o) s = .next (s.setReg .B (s.b ^^^ s.c)).advance :=
  rfl

theorem shiftDiv_eq_div (a n : Nat) : shiftDiv a n = a / 2 ^ n :=
  Nat.shiftRight_eq_div_pow a n

theorem shiftDiv_eq_zero_iff (a n : Nat) : shiftDiv a n = 0 ↔ a < 2 ^ n := by
  rw [shiftDiv_eq_div, Nat.div_eq_zero_iff_lt (Nat.two_pow_pos n)]

end Sys2Proof.Machine

open Sys2Proof Sys2Proof.Machine

/-- Settles O11: a legal literal has three bits, and above 7 the operand fails the literal check. -/
theorem bxlXorsLiteralIntoB : Obligations.BxlXorsLiteralIntoB := by
  intro o s
  refine ⟨fun h => ⟨exec_bxl_of_le_seven s h, xor_div_eight s.b h, Nat.xor_xor_cancel_right _ _,
    decode_literal_of_le_seven (i := .bxl o) rfl h⟩, fun h => ?_, fun h => ?_⟩
  · rw [exec_bxl_of_le_seven s (by omega), h, Nat.xor_zero]
    rfl
  · exact exec_of_operandCheck_some (.bxl o) s _ (operandCheck_literal_of_gt h)

/-- Settles O13: no operand is looked at, and the rest are laws of XOR. -/
theorem bxcXorsCIntoB : Obligations.BxcXorsCIntoB := by
  intro o s
  refine ⟨exec_bxc o s, fun hc => ?_, fun hbc => ?_, Nat.xor_xor_cancel_right _ _, rfl⟩
  · have hxor : s.b ^^^ s.c = s.b := by rw [hc, Nat.xor_zero]
    rw [exec_bxc, hxor]
    rfl
  · have hxor : s.b ^^^ s.c = 0 := by rw [hbc, Nat.xor_self]
    rw [exec_bxc, hxor]
    rfl

/-- Settles O43: XOR and the remainder by `2 ^ 3`, bit by bit. -/
theorem bitwiseOperationLaws : Obligations.BitwiseOperationLaws := by
  refine fun a b => ⟨fun i => ?_, ?_, fun i => Nat.testBit_mod_two_pow a 3 i, rfl⟩
  · simp [bitXor]
  · exact (bitLen_le_iff _ _).2 (Nat.xor_lt_two_pow ((bitLen_le_iff _ _).1 (le_max_left _ _))
      ((bitLen_le_iff _ _).1 (le_max_right _ _)))

/-- Settles O42: the laws of a right shift. -/
theorem shiftDivLaws : Obligations.ShiftDivLaws := by
  intro a n m
  exact ⟨shiftDiv_eq_div a n, rfl, Nat.zero_shiftRight n, shiftDiv_eq_zero_iff a n,
    fun h => (shiftDiv_eq_zero_iff a n).2 ((bitLen_le_iff a n).1 h), Nat.shiftRight_le a n,
    (Nat.shiftRight_add a n m).symm, rfl, rfl⟩

end

section
/-! SUPPORT. The frames of the instructions: the program stays (R40), and the latch changes on an illegal
operand only, and then alone (R59, R113). -/

namespace Sys2Proof.Machine

theorem exec_keeps_program {i : Instr} {s t : State} (h : exec i s = .next t) :
    t.cfg = s.cfg ∧ t.len = s.len ∧ ∀ j, t.memRead j = s.memRead j := by
  obtain ⟨hprog, hcfg⟩ := (executes_of_exec h).prog_cfg_eq
  exact ⟨hcfg, len_eq_of_prog_eq hprog, memRead_eq_of_prog_eq hprog⟩

/-- A well-formed instruction other than the jump leaves the latch alone. -/
theorem fault_eq_of_wellFormed {i : Instr} {s t : State} (h : exec i s = .next t)
    (hwf : i.wellFormed = true) (hjump : (opcodeCell i).toNat ≠ 3) : t.fault = s.fault := by
  have hlegal := (operandCheck_eq_none_iff _ _).2 hwf
  rcases (executes_of_exec h).fault_eq_or_misaligned hlegal with hf | ⟨o, rfl, -⟩
  · exact hf
  · exact absurd rfl hjump

/-- An ill-formed instruction changes the latch alone. -/
theorem eq_latch_of_not_wellFormed {i : Instr} {s t : State} (h : exec i s = .next t)
    (hwf : i.wellFormed = false) : t = { s with fault := t.fault } := by
  cases hk : operandCheck i.mode i.operand with
  | none => simp [Instr.wellFormed, (operandCheck_eq_none_iff _ _).1 hk] at hwf
  | some k =>
    obtain rfl : s.latch k i.operand = t := by
      simpa using (exec_of_operandCheck_some i s k hk).symm.trans h
    rfl

theorem wellFormed_combo_iff {i : Instr} (h : i.mode = .combo) :
    i.wellFormed = true ↔ i.operand.toNat ≤ 6 := by
  simp [Instr.wellFormed, h, OperandMode.legal]

/-- The latch after a combo instruction, by the operand alone. -/
theorem comboInstr_latch {i : Instr} {s t : State} (hmode : i.mode = .combo)
    (h : exec i s = .next t) :
    (i.operand.toNat ≤ 6 → t.fault = s.fault) ∧
      (7 ≤ i.operand.toNat → t = { s with fault := t.fault }) := by
  have hop := (mode_eq_combo_iff i).1 hmode
  refine ⟨fun ho => ?_, fun ho => eq_latch_of_not_wellFormed h ?_⟩
  · exact fault_eq_of_wellFormed h ((wellFormed_combo_iff hmode).2 ho) fun h3 => by simp [h3] at hop
  · rw [← Bool.not_eq_true, wellFormed_combo_iff hmode]
    omega

end Sys2Proof.Machine

open Sys2Proof Sys2Proof.Machine

/-- Settles O17: by its opcode each divide writes its own destination and no output. -/
theorem divideFrame : Obligations.DivideFrame := by
  intro o s t
  refine ⟨fun h => ?_, fun h => ?_, fun h => ?_, fun i hi h => ?_⟩
  · exact ⟨(executes_of_exec h).b_eq (by simp [opcodeCell]),
      (executes_of_exec h).c_eq (by simp [opcodeCell])⟩
  · exact ⟨(executes_of_exec h).a_eq (by simp [opcodeCell]),
      (executes_of_exec h).c_eq (by simp [opcodeCell])⟩
  · exact ⟨(executes_of_exec h).a_eq (by simp [opcodeCell]),
      (executes_of_exec h).b_eq (by simp [opcodeCell])⟩
  · obtain ⟨hmode, rfl, hop⟩ : i.mode = .combo ∧ i.operand = o ∧ (opcodeCell i).toNat ≠ 5 := by
      simp only [List.mem_cons, List.not_mem_nil, or_false] at hi
      rcases hi with rfl | rfl | rfl <;> simp [Instr.mode, Instr.operand, opcodeCell]
    obtain ⟨hcfg, hlen, hread⟩ := exec_keeps_program h
    exact ⟨(executes_of_exec h).out_eq hop, hcfg, hlen, hread, comboInstr_latch hmode h⟩

/-- Settles O18: by their opcodes the three write B only, and the jump is none of them. -/
theorem bitwiseFrame : Obligations.BitwiseFrame := by
  intro o s t
  refine ⟨fun i hi h => ?_, fun h => fault_eq_of_wellFormed h rfl (by simp [opcodeCell])⟩
  have hop : (opcodeCell i).toNat ∈ [1, 2, 4] := by
    simp only [List.mem_cons, List.not_mem_nil, or_false] at hi
    rcases hi with rfl | rfl | rfl <;> simp [opcodeCell]
  simp only [List.mem_cons, List.not_mem_nil, or_false] at hop
  obtain ⟨hcfg, hlen, hread⟩ := exec_keeps_program h
  have hi := executes_of_exec h
  exact ⟨hi.a_eq (by omega), hi.c_eq (by omega), hi.out_eq (by omega), hcfg, hlen, hread,
    fun hwf => fault_eq_of_wellFormed h hwf (by omega), eq_latch_of_not_wellFormed h⟩

/-- Settles O19: the four outcomes of a jump. -/
theorem jumpFrame : Obligations.JumpFrame := by
  intro o s t h
  obtain ⟨hcfg, hlen, hread⟩ := exec_keeps_program h
  have hi := executes_of_exec h
  refine ⟨hi.a_eq (by simp [opcodeCell]), hi.b_eq (by simp [opcodeCell]),
    hi.c_eq (by simp [opcodeCell]), hi.out_eq (by simp [opcodeCell]), hcfg, hlen, hread, ?_⟩
  rcases execJnz_next o s t h with
    ⟨-, -, rfl⟩ | ⟨-, -, -, rfl⟩ | ⟨-, ha, hodd, rfl⟩ | ⟨hgt, rfl⟩
  · exact .inl rfl
  · exact .inl rfl
  · obtain ⟨hstrict, hodd⟩ := (s.targetMisaligned_iff _).1 hodd
    exact .inr ⟨rfl, .inr ⟨hstrict, ha, hodd⟩⟩
  · exact .inr ⟨rfl, .inl hgt⟩

/-- Settles O20: a legal operand resolves to the value whose low bits are appended. -/
theorem outputFrame : Obligations.OutputFrame := by
  intro o s t h
  obtain ⟨hcfg, hlen, hread⟩ := exec_keeps_program h
  have hi := executes_of_exec h
  obtain ⟨hlegal, hillegal⟩ := comboInstr_latch (i := .out o) rfl h
  refine ⟨hi.a_eq (by simp [opcodeCell]), hi.b_eq (by simp [opcodeCell]),
    hi.c_eq (by simp [opcodeCell]), hcfg, hlen, hread, fun ho => ⟨hlegal ho, ?_⟩, hillegal⟩
  rcases execOut_next o s t h with ⟨v, -, -, rfl⟩ | ⟨k, hk, -⟩
  · exact ⟨_, rfl⟩
  · have hnone : operandCheck .combo o = none := if_pos ho
    simp [(combo_error_iff o s k).1 hk] at hnone

/-- Settles O16: the room left decides, and three bits of a value are those of its remainder by 8. -/
theorem outWithFiniteCapacity : Obligations.OutWithFiniteCapacity := by
  intro o s v cap hcap hv
  have hroom : s.outRoom = decide (s.out.length < cap) := by rw [State.outRoom, hcap]
  refine ⟨fun hlt => ?_, fun hle => ?_⟩
  · have hbits : BitVec.ofNat 3 (v % 8) = BitVec.ofNat 3 v := BitVec.eq_of_toNat_eq (by simp)
    rw [exec_out_of_comboValue hv, if_pos (by simpa [hroom] using hlt), hbits]
    rfl
  · rw [exec_out_of_comboValue hv, if_neg (by simpa [hroom] using hle)]

end

section
/-! The step on a given pair (R61, R72 to R74). -/

open Sys2Proof Sys2Proof.Machine

/-- Settles O21: the rule of an accepted pair. -/
theorem stepRunsDecodedInstruction : Obligations.StepRunsDecodedInstruction :=
  fun _ _ _ _ => step_of_decode_ok

/-- Settles O22: the rule of a rejected pair. -/
theorem stepTakesDecodeError : Obligations.StepTakesDecodeError :=
  fun _ _ _ _ => step_of_decode_error

/-- Settles O23: any operand cell after such an opcode is rejected with it, and without one the machine
is halted. -/
theorem illegalOpcodeFaultsWhereDecoded : Obligations.IllegalOpcodeFaultsWhereDecoded := by
  intro s opc hf hopc hgt
  refine ⟨fun hlt => ?_, fun hlen => (step_eq_halted_iff s).2 ⟨hf, hlen.ge⟩⟩
  obtain ⟨_, o, -, ho⟩ := exists_pair_of_pc_lt hlt
  exact step_of_decode_error hf hopc ho ((decode_eq_error_iff opc o _).2 (.inl ⟨hgt, rfl⟩))

/-- Settles O5: the placed cells are the ones fetched. -/
theorem placedWordRunsNext : Obligations.PlacedWordRunsNext := by
  intro s nbits w i h
  obtain ⟨hopc, ho⟩ := placePair_read s.prog s.pc (tableOpcode nbits w) (tableOperand nbits w)
  refine step_of_decode_ok (s := s.withFetchWord nbits w) rfl hopc ho ?_
  unfold decodeTableWord at h
  split at h
  · next j hj => exact hj.trans (congrArg _ (Option.some.inj h))
  · cases h

end

section
/-! SUPPORT. The host's operations where the machine has no step, and what a construction is accepted or
refused for (R24, R135, R136, row U7). -/

namespace Sys2Proof.Machine

open Sys2Proof.Safety

theorem hostStep_of_step_fault {s : State} {r : Fault} (h : step s = .fault r) :
    hostStep s = .next s := by
  simp [hostStep, h]

/-- Where the machine does not stop, the host's Step is its step (R135). -/
theorem hostStep_eq_step {s : State} (h : ∀ r, step s ≠ .fault r) : hostStep s = step s := by
  unfold hostStep
  cases hstep : step s with
  | next t => rfl
  | fault r => exact absurd hstep (h r)
  | refused r => rfl

/-- A state with no fault and a pair to fetch does not stop: it steps or is refused (R70, row U8). -/
theorem step_ne_fault {s : State} (hf : s.fault = none) (hlt : s.pc + 1 < s.len) (r : Fault) :
    step s ≠ .fault r := by
  obtain ⟨opc, o, hopc, ho⟩ := exists_pair_of_pc_lt hlt
  cases hd : decode opc o with
  | error e => simp [step_of_decode_error hf hopc ho hd]
  | ok i => rw [step_of_decode_ok hf hopc ho hd]; exact exec_ne_fault i s r

theorem outputOf_eq_some_iff (s : State) (o : List OutElem) :
    outputOf s = some o ↔ Final s ∧ o = s.out := by
  rw [Final, ← statusOf_eq_halted_iff, outputOf]
  cases statusOf s <;> simp [eq_comm]

theorem outputOf_eq_none {s : State} (h : ¬ Final s) : outputOf s = none :=
  Option.eq_none_iff_forall_ne_some.2 fun o ho => h ((outputOf_eq_some_iff s o).1 ho).1

theorem construct_of_xlen_eq_none {cfg : Config} (h : cfg.xlen = none) (a b c : Nat) (p : Program) :
    construct cfg a b c p = .ok (State.fresh cfg a b c p) := by
  rw [construct, h]

theorem construct_of_xlen_eq_some {cfg : Config} {w : Nat} (h : cfg.xlen = some w) (a b c : Nat)
    (p : Program) :
    construct cfg a b c p =
      if w < 3 then .error .widthBelowThree
      else if a < 2 ^ w ∧ b < 2 ^ w ∧ c < 2 ^ w then .ok (State.fresh cfg a b c p)
      else .error .registerTooWide := by
  rw [construct, h]

end Sys2Proof.Machine

open Sys2Proof Sys2Proof.Machine Sys2Proof.Safety

/-- Settles O49: the host's Step differs from the step only where that stops, which a running state does
not; Output answers by the status. -/
theorem hostStepAndOutputInEveryState : Obligations.HostStepAndOutputInEveryState := by
  intro s
  refine ⟨fun t h => ?_, fun r h => ?_, fun hne => ?_, fun hf hle => ?_, fun hf hlt => ?_,
    outputOf_eq_some_iff s⟩
  · exact (hostStep_eq_step (by simp [h])).trans h
  · exact (hostStep_eq_step (by simp [h])).trans h
  · obtain ⟨r, hr⟩ := Option.ne_none_iff_exists'.1 hne
    exact hostStep_of_step_fault (step_of_fault hr)
  · exact hostStep_of_step_fault ((step_eq_halted_iff s).2 ⟨hf, hle⟩)
  · exact ⟨hostStep_eq_step (step_ne_fault hf hlt), (statusOf_eq_running_iff s).2 ⟨hf, hlt⟩,
      outputOf_eq_none fun hfinal => Nat.not_le.2 hlt hfinal.2⟩

/-- Settles O41: a set latch stops every step, and Status, Output and Run answer from it. -/
theorem faultedMachineStaysFaulted : Obligations.FaultedMachineStaysFaulted := by
  intro s r hr
  have hstop := step_of_fault hr
  exact ⟨(statusOf_eq_faulted_iff s r).2 hr,
    outputOf_eq_none fun hfinal => absurd (hr.symm.trans hfinal.1) nofun,
    hostStep_of_step_fault hstop,
    fun n => (runFor_of_step_fault hstop n).trans ((runResultAt_eq_fatal_iff s r).2 hr)⟩

/-- Settles O44: without a width every construction is accepted, with one those that fit it. -/
theorem constructGivesResetState : Obligations.ConstructGivesResetState := by
  rintro cfg a b c p (h | ⟨w, h, hw, hfits⟩)
  · exact construct_of_xlen_eq_none h a b c p
  · rw [construct_of_xlen_eq_some h, if_neg (by omega), if_pos hfits]
    rfl

/-- Settles O45: the width itself is tested first, then the registers. -/
theorem constructRefusesMisfits : Obligations.ConstructRefusesMisfits := by
  intro cfg a b c w p h
  refine ⟨fun hw => ?_, fun hw hmisfit => ?_⟩
  · rw [construct_of_xlen_eq_some h, if_pos hw]
  · rw [construct_of_xlen_eq_some h, if_neg (by omega), if_neg (by omega)]

/-- Settles O46: a construction has `pc` 0, no fault, and its registers are their own bit lengths long. -/
theorem constructionMeetsInvariants : Obligations.ConstructionMeetsInvariants := by
  refine ⟨⟨rfl, rfl, rfl, rfl⟩, fun cfg a b c p =>
    ⟨Nat.zero_le _, nofun, ?_, fun hwf => ⟨hwf, rfl, rfl⟩⟩⟩
  exact ⟨(bitLen_le_iff _ _).1 (by simp), (bitLen_le_iff _ _).1 (by simp),
    (bitLen_le_iff _ _).1 (by simp)⟩

end

section
/-! SUPPORT. The Quine Solver: what a run, a trial and a validation answer, and which candidate's answer
a level gives (R145 to R152). -/

namespace Sys2Proof.Machine

open Sys2Proof.Safety

theorem outputIsProgram_iff (o : List OutElem) (p : Program) :
    outputIsProgram o p = true ↔ o.map BitVec.toNat = p.map BitVec.toNat :=
  beq_iff_eq

theorem firstMatches_iff (o : List OutElem) (p : Program) (index : Nat) :
    firstMatches o p index = true ↔
      ∃ e x, o.head? = some e ∧ p[index]? = some x ∧ e.toNat = x.toNat := by
  unfold firstMatches
  cases o.head? <;> cases p[index]? <;> simp

theorem trialRun_of_construct_error {cfg : Config} {fuel cand : Nat} {p : Program}
    {r : ConstructRefusal} (h : construct cfg cand 0 0 p = .error r) :
    trialRun cfg fuel cand p = .error (.notConstructed r) := by
  simp [trialRun, h]

/-- What a trial makes of its run's answer: an output, or the answer the search is given up with. -/
def trialAnswer : RunResult → Except SearchResult (List OutElem)
  | .ok o => .ok o
  | .fatal record => .error (.fatal record)
  | .unfinished _ => .error .unfinished
  | .refused r => .error (.refused r)

theorem trialRun_of_construct_ok {cfg : Config} {fuel cand : Nat} {p : Program} {s : State}
    (h : construct cfg cand 0 0 p = .ok s) :
    trialRun cfg fuel cand p = trialAnswer (runFor fuel s) := by
  rw [trialRun, h]
  cases hrun : runFor fuel s <;> simp [hrun, trialAnswer]

theorem visit_of_trialRun_error {cfg : Config} {fuel cand index : Nat} {p : Program}
    {r : SearchResult} (deeper : Nat → SearchResult)
    (h : trialRun cfg fuel cand (truncated p) = .error r) :
    visit cfg fuel p index deeper cand = r := by
  simp [visit, h]

theorem visit_of_trialRun_ok {cfg : Config} {fuel cand index : Nat} {p : Program}
    {o : List OutElem} (deeper : Nat → SearchResult)
    (h : trialRun cfg fuel cand (truncated p) = .ok o) :
    visit cfg fuel p index deeper cand =
      if firstMatches o p index then deeper cand else .notFound := by
  simp [visit, h]

theorem validate_of_trialRun_error {cfg : Config} {fuel cand : Nat} {p : Program}
    {r : SearchResult} (h : trialRun cfg fuel cand p = .error r) :
    validate cfg fuel p cand = r := by
  simp [validate, h]

theorem validate_of_trialRun_ok {cfg : Config} {fuel cand : Nat} {p : Program}
    {o : List OutElem} (h : trialRun cfg fuel cand p = .ok o) :
    validate cfg fuel p cand = if outputIsProgram o p then .found cand else .notFound := by
  simp [validate, h]

/-! A level tries its digits in ascending order (R147, R149). -/

theorem tryDigits_cons_of_notFound {attempt : Nat → SearchResult} {current d : Nat}
    (h : attempt (current * 8 + d) = .notFound) (ds : List Nat) :
    tryDigits attempt current (d :: ds) = tryDigits attempt current ds := by
  simp [tryDigits, h]

theorem tryDigits_cons_of_ne {attempt : Nat → SearchResult} {current d : Nat}
    (h : attempt (current * 8 + d) ≠ .notFound) (ds : List Nat) :
    tryDigits attempt current (d :: ds) = attempt (current * 8 + d) := by
  rw [tryDigits]
  split
  · contradiction
  · rfl

/-- Digits that are mismatches are passed over. -/
theorem tryDigits_append_of_notFound {attempt : Nat → SearchResult} {current : Nat} :
    ∀ {ds : List Nat}, (∀ d ∈ ds, attempt (current * 8 + d) = .notFound) → ∀ ds' : List Nat,
      tryDigits attempt current (ds ++ ds') = tryDigits attempt current ds'
  | [], _, _ => rfl
  | _ :: _, h, ds' => by
    rw [List.cons_append, tryDigits_cons_of_notFound (h _ List.mem_cons_self),
      tryDigits_append_of_notFound fun d hd => h d (List.mem_cons_of_mem _ hd)]

/-- A level's answer other than "not found" is one of its digits'. -/
theorem exists_attempt_of_tryDigits_ne {attempt : Nat → SearchResult} {current : Nat} :
    ∀ {ds : List Nat}, tryDigits attempt current ds ≠ .notFound →
      ∃ d ∈ ds, attempt (current * 8 + d) = tryDigits attempt current ds
  | [], h => absurd rfl h
  | d :: ds, h => by
    by_cases hd : attempt (current * 8 + d) = .notFound
    · rw [tryDigits_cons_of_notFound hd] at h ⊢
      obtain ⟨d', hd', ha⟩ := exists_attempt_of_tryDigits_ne h
      exact ⟨d', List.mem_cons_of_mem _ hd', ha⟩
    · exact ⟨d, List.mem_cons_self, (tryDigits_cons_of_ne hd ds).symm⟩

theorem mem_octalDigits_iff (d : Nat) : d ∈ octalDigits ↔ d < 8 := by
  simp [octalDigits]
  omega

/-- The digits of a level up to and after a given one. -/
theorem octalDigits_split :
    ∀ d < 8, octalDigits = List.range d ++ d :: List.range' (d + 1) (7 - d) := by
  decide

/-- The first digit that is not a mismatch decides the level. -/
theorem tryDigits_octalDigits_of_first {attempt : Nat → SearchResult} {current d : Nat} (hd : d < 8)
    (hne : attempt (current * 8 + d) ≠ .notFound)
    (hfirst : ∀ d' < d, attempt (current * 8 + d') = .notFound) :
    tryDigits attempt current octalDigits = attempt (current * 8 + d) := by
  rw [octalDigits_split d hd,
    tryDigits_append_of_notFound fun d' hd' => hfirst d' (List.mem_range.1 hd'),
    tryDigits_cons_of_ne hne]

theorem tryDigits_eq_notFound_iff (attempt : Nat → SearchResult) (current : Nat) (ds : List Nat) :
    tryDigits attempt current ds = .notFound ↔ ∀ d ∈ ds, attempt (current * 8 + d) = .notFound := by
  induction ds with
  | nil => simp [tryDigits]
  | cons d ds ih =>
    by_cases hd : attempt (current * 8 + d) = .notFound
    · rw [tryDigits_cons_of_notFound hd, ih]
      simp [hd]
    · rw [tryDigits_cons_of_ne hd]
      simp [hd]

/-- A level fails exactly when all eight digits do. -/
theorem tryDigits_octalDigits_eq_notFound_iff (attempt : Nat → SearchResult) (current : Nat) :
    tryDigits attempt current octalDigits = .notFound ↔
      ∀ d < 8, attempt (current * 8 + d) = .notFound := by
  simp only [tryDigits_eq_notFound_iff, mem_octalDigits_iff]

/-! A decode error in a candidate's trial or validation is its answer (R116). -/

theorem candidateAnswer_of_trialRun_error {cfg : Config} {fuel index cand : Nat} {p : Program}
    {r : SearchResult} (h : trialRun cfg fuel cand (truncated p) = .error r) :
    candidateAnswer cfg fuel p index cand = r := by
  cases index with
  | zero => exact visit_of_trialRun_error _ h
  | succ index => exact visit_of_trialRun_error _ h

theorem candidateAnswer_zero_of_validation_error {cfg : Config} {fuel cand : Nat} {p : Program}
    {o : List OutElem} {r : SearchResult} (htrial : trialRun cfg fuel cand (truncated p) = .ok o)
    (hmatch : firstMatches o p 0 = true) (h : trialRun cfg fuel cand p = .error r) :
    candidateAnswer cfg fuel p 0 cand = r :=
  (visit_of_trialRun_ok _ htrial).trans ((if_pos hmatch).trans (validate_of_trialRun_error h))

/-- The first candidate that is no mismatch decides the search at its level (R147). -/
theorem search_eq_of_first {cfg : Config} {fuel index current d : Nat} {p : Program}
    {r : SearchResult} (hd : d < 8) (hr : candidateAnswer cfg fuel p index (current * 8 + d) = r)
    (hne : r ≠ .notFound)
    (hfirst : ∀ d' < d, candidateAnswer cfg fuel p index (current * 8 + d') = .notFound) :
    search cfg fuel p index current = r := by
  rw [search_eq_tryDigits, tryDigits_octalDigits_of_first hd (hr ▸ hne) hfirst, hr]

/-! An answer found comes from a validation (R147, R150). -/

/-- A trial gives the search up, but never with an answer found. -/
theorem trialRun_ne_error_found (cfg : Config) (fuel cand a : Nat) (p : Program) :
    trialRun cfg fuel cand p ≠ .error (.found a) := by
  cases h : construct cfg cand 0 0 p with
  | error r => simp [trialRun_of_construct_error h]
  | ok s =>
    rw [trialRun_of_construct_ok h]
    cases runFor fuel s <;> simp [trialAnswer]

theorem trialRun_of_validate_found {cfg : Config} {fuel cand a : Nat} {p : Program}
    (h : validate cfg fuel p cand = .found a) :
    ∃ o, trialRun cfg fuel a p = .ok o ∧ o.map BitVec.toNat = p.map BitVec.toNat := by
  cases htrial : trialRun cfg fuel cand p with
  | error r =>
    obtain rfl := (validate_of_trialRun_error htrial).symm.trans h
    exact absurd htrial (trialRun_ne_error_found _ _ _ _ _)
  | ok o =>
    rw [validate_of_trialRun_ok htrial] at h
    split_ifs at h with hprogram
    cases h
    exact ⟨o, htrial, (outputIsProgram_iff o p).1 hprogram⟩

theorem deeper_of_visit_found {cfg : Config} {fuel index cand a : Nat} {p : Program}
    {deeper : Nat → SearchResult} (h : visit cfg fuel p index deeper cand = .found a) :
    deeper cand = .found a := by
  cases htrial : trialRun cfg fuel cand (truncated p) with
  | error r =>
    obtain rfl := (visit_of_trialRun_error deeper htrial).symm.trans h
    exact absurd htrial (trialRun_ne_error_found _ _ _ _ _)
  | ok o =>
    rw [visit_of_trialRun_ok deeper htrial] at h
    split_ifs at h
    exact h

/-- An answer found is a candidate that the validation accepted. -/
theorem validate_of_search_found {cfg : Config} {fuel a : Nat} {p : Program} :
    ∀ {index current : Nat}, search cfg fuel p index current = .found a →
      ∃ cand, validate cfg fuel p cand = .found a := by
  intro index
  induction index with
  | zero =>
    intro current h
    obtain ⟨d, -, hd⟩ := exists_attempt_of_tryDigits_ne (h.trans_ne nofun)
    exact ⟨_, deeper_of_visit_found (hd.trans h)⟩
  | succ index ih =>
    intro current h
    obtain ⟨d, -, hd⟩ := exists_attempt_of_tryDigits_ne (h.trans_ne nofun)
    exact ih (deeper_of_visit_found (hd.trans h))

end Sys2Proof.Machine

open Sys2Proof Sys2Proof.Machine Sys2Proof.Safety

/-- Settles O47: an answer found was validated, and a validation accepts only the program as output. -/
theorem solverAnswersAreQuines : Obligations.SolverAnswersAreQuines := by
  intro cfg fuel p a h
  unfold solve at h
  split at h
  · cases h
  · obtain ⟨cand, hcand⟩ := validate_of_search_found h
    obtain ⟨o, htrial, hprogram⟩ := trialRun_of_validate_found hcand
    obtain ⟨s, hconstruct, hrun⟩ := (trialRun_eq_ok_iff cfg fuel a p o).1 htrial
    exact ⟨s, o, hconstruct, hrun, hprogram⟩

/-- Settles O48: the two facts about a level's digits, at the search's own candidates, and the answers
of candidates with a decode error. -/
theorem searchLevelTakesFirstAnswer : Obligations.SearchLevelTakesFirstAnswer := by
  refine ⟨fun attempt current r => ⟨fun d hd hne hr hfirst => ?_, ?_⟩,
    fun cfg fuel p index current => ⟨fun d hd hne hfirst => ?_, ?_, fun cand f deeper h => ?_,
      fun cand f h => ?_, fun d hd f h hfirst => ?_, fun d hd f o htrial hmatch h hfirst => ?_⟩⟩
  · exact (tryDigits_octalDigits_of_first hd (hr ▸ hne) hfirst).trans hr
  · exact (tryDigits_octalDigits_eq_notFound_iff attempt current).symm
  · exact search_eq_of_first hd rfl hne hfirst
  · rw [search_eq_tryDigits]
    exact (tryDigits_octalDigits_eq_notFound_iff _ current).symm
  · exact visit_of_trialRun_error deeper h
  · exact validate_of_trialRun_error h
  · exact search_eq_of_first hd (candidateAnswer_of_trialRun_error h) nofun hfirst
  · exact search_eq_of_first hd (candidateAnswer_zero_of_validation_error htrial hmatch h) nofun
      hfirst

/-- Settles O50: a trial and a validation answer as their runs do, and an output is then compared. -/
theorem candidateAnswersFollowItsRuns : Obligations.CandidateAnswersFollowItsRuns := by
  intro cfg fuel p index cand deeper
  refine ⟨fun r h => visit_of_trialRun_error _ (trialRun_of_construct_error h),
    fun r h => validate_of_trialRun_error (trialRun_of_construct_error h), fun s h => ?_,
    fun s h => ?_⟩
  · have htrial : trialRun cfg fuel cand (truncated p) = trialAnswer (runFor fuel s) :=
      trialRun_of_construct_ok h
    refine ⟨fun f hrun => ?_, fun u hrun => ?_, fun r hrun => ?_, fun o hrun => ?_⟩
    all_goals rw [hrun] at htrial
    · exact visit_of_trialRun_error deeper htrial
    · exact visit_of_trialRun_error deeper htrial
    · exact visit_of_trialRun_error deeper htrial
    · rw [visit_of_trialRun_ok deeper htrial, ← firstMatches_iff]
      exact ⟨fun hm => if_pos hm, fun hm => if_neg hm⟩
  · have htrial : trialRun cfg fuel cand p = trialAnswer (runFor fuel s) :=
      trialRun_of_construct_ok h
    refine ⟨fun f hrun => ?_, fun u hrun => ?_, fun r hrun => ?_, fun o hrun => ?_⟩
    all_goals rw [hrun] at htrial
    · exact validate_of_trialRun_error htrial
    · exact validate_of_trialRun_error htrial
    · exact validate_of_trialRun_error htrial
    · rw [validate_of_trialRun_ok htrial, ne_eq, ← outputIsProgram_iff]
      exact ⟨fun hm => if_pos hm, fun hm => if_neg hm⟩

end
